-- ==== Sys2Proof/Word.lean ====
section
/-! DEFINITION. Word: the widths of everything the block holds or receives
(spec/00_scope.md, spec/10_state.md, spec/30_encoding.md). Types only, no arithmetic. -/

namespace Sys2Proof

/-- ADDR, the instruction address of a branch: an unsigned 32-bit value, every value legal (R15). -/
abbrev Addr := BitVec 32

/-- OUTCOME and PRED as the one bit they are on every port and in every history register (R16):
`true` is TAKEN (1), `false` is NOT_TAKEN (0). -/
abbrev Direction := Bool

/-- TAKEN is the bit 1 (R16). -/
abbrev taken : Direction := true

/-- NOT_TAKEN is the bit 0 (R16). -/
abbrev notTaken : Direction := false

/-- A 2-bit saturating counter: SN = 0, WN = 1, WT = 2, ST = 3; all four patterns legal (R100). -/
abbrev Counter := BitVec 2

/-- Storage for a history register of a configured width (GS.GHR, TN.GHR, an entry of TN.LHT). The
width in force is G or L, at most MAXBITS = 32 (R8, R9, R14); that the value stays below `2 ^ width`
is part of the invariant (R48). -/
abbrev History := BitVec 32

/-- PC.GHR: 31 bits (R13, R35). -/
abbrev PercHistory := BitVec 31

/-- One perceptron weight: 8-bit two's complement (R37). -/
abbrev Weight := BitVec 8

/-- One row of PC.PT: 31 weights, weight 0 the bias (R36). -/
abbrev Row := Vector Weight 31

/-- CFG: 21 bits, VARIANT 20:18, G 17:12, L 11:6, P 5:0 (R21). -/
abbrev CfgWord := BitVec 21

/-- A strategy code: 0 Static, 1 Gshare, 2 Tournament, 3 Custom, 4 to 7 unknown (R22, R78). -/
abbrev VariantCode := BitVec 3

/-- A width field of INIT and of CFG: an unsigned 6-bit number (R74). -/
abbrev WidthField := BitVec 6

/-- A request word REQ[35:0] (R70). -/
abbrev Request := BitVec 36

/-- A dispatch word DW[38:0] = CFG.VARIANT ∥ REQ (R81). -/
abbrev DispatchWord := BitVec 39

end Sys2Proof
end

