-- ==== Sys2Proof/Config.lean ====
section
/-! DEFINITION. Config: the named parameters of the block with the values the spec decides
(spec/00_scope.md R11 to R14, spec/92_eei_decisions.md D6, D8, D9, D10), and the constants of the
perceptron. Everything that depends on a parameter takes it as an argument of type `Params`; the
machine of `exec` and `step` is the one with `Config.params`. -/

namespace Sys2Proof

/-- The named parameters that the spec leaves OPEN with a default (R12, R14, R49). -/
structure Params where
  /-- THETA, the training threshold of the perceptron (R12). -/
  theta : Nat
  /-- MAXBITS, the largest legal value of G, L and P (R14). -/
  maxBits : Nat
  /-- INIT_HIST, the value of every history register after INIT (D8, D9), cut to the register's width. -/
  initHist : BitVec 32
  /-- INIT_CTR, the value of every PHT, LPT and GPT counter after INIT (D8, D22). -/
  initCtr : Counter
  /-- INIT_SEL, the value of every SEL entry after INIT (D8). -/
  initSel : Counter
  /-- INIT_W, the value of every perceptron weight after INIT (D9). -/
  initW : Weight
  deriving DecidableEq, Repr

/-- What the spec asks of a choice of the parameters: MAXBITS is 32 or any smaller positive bound (R14). -/
abbrev Params.Legal (prm : Params) : Prop := 1 ≤ prm.maxBits ∧ prm.maxBits ≤ 32

/-- The defaults: THETA = 71 (D10), MAXBITS = 32 (D6), INIT_HIST = 0, INIT_CTR = 1 (WN),
INIT_SEL = 1 (weakly local), INIT_W = 0 (D8, D9). -/
def Config.params : Params where
  theta := 71
  maxBits := 32
  initHist := 0
  initCtr := 1
  initSel := 1
  initW := 0

/-- N = 8, the address-index width of the perceptron table: `2 ^ 8 = 256` rows (R11). -/
def Config.rowIndexBits : Nat := 8

/-- PGHR_W = 31, the stored width of PC.GHR (R13). -/
def Config.pghrWidth : Nat := 31

@[simp] theorem Config.params_theta : Config.params.theta = 71 := rfl
@[simp] theorem Config.params_maxBits : Config.params.maxBits = 32 := rfl
@[simp] theorem Config.params_initHist : Config.params.initHist = 0#32 := rfl
@[simp] theorem Config.params_initCtr : Config.params.initCtr = 1#2 := rfl
@[simp] theorem Config.params_initSel : Config.params.initSel = 1#2 := rfl
@[simp] theorem Config.params_initW : Config.params.initW = 0#8 := rfl
@[simp] theorem Config.rowIndexBits_eq : Config.rowIndexBits = 8 := rfl
@[simp] theorem Config.pghrWidth_eq : Config.pghrWidth = 31 := rfl

end Sys2Proof
end

