-- ==== Sys2Proof/Machine/State.lean ====
section
/-! DEFINITION. State: all the state the spec gives the block (spec/10_state.md), as plain data, with
the two sides of the host's interface: the requests still to come and the response of the last
operation. The strategy state is a sum type with one alternative per row of R20's table (R41). -/

namespace Sys2Proof.Machine

/-- A table of the block, as the list of the entries that differ from the value INIT fills it with:
indices strictly rising, no entry holding the fill value (`Table.wf` in Machine/Ops.lean). What an
unlisted index reads as is the table's INIT value (R49), given to `Table.read`. -/
abbrev Table (α : Type) := List (Nat × α)

/-- The state Gshare owns (R28, R29). -/
structure Gshare where
  /-- GS.GHR, G bits (R28). -/
  ghr : History
  /-- GS.PHT, `2 ^ G` counters (R29). -/
  pht : Table Counter
  deriving DecidableEq, Repr

/-- The state Tournament owns (R30 to R34). -/
structure Tournament where
  /-- TN.GHR, G bits (R30). -/
  ghr : History
  /-- TN.LHT, `2 ^ P` histories of L bits (R31). -/
  lht : Table History
  /-- TN.LPT, `2 ^ L` counters (R32). -/
  lpt : Table Counter
  /-- TN.GPT, `2 ^ G` counters (R33). -/
  gpt : Table Counter
  /-- TN.SEL, `2 ^ G` counters (R34). -/
  sel : Table Counter
  deriving DecidableEq, Repr

/-- The state Custom owns (R35, R36). -/
structure Custom where
  /-- PC.GHR, 31 bits (R35). -/
  ghr : PercHistory
  /-- PC.PT, 256 rows of 31 weights (R36). -/
  pt : Table Row
  deriving DecidableEq, Repr

/-- The state of the one active strategy (R20, R41). -/
inductive Strategy where
  /-- Static owns none (R27). -/
  | static
  | gshare (gs : Gshare)
  | tournament (tn : Tournament)
  | custom (pc : Custom)
  /-- An unknown strategy code owns none (R38). -/
  | unknown
  deriving DecidableEq, Repr

/-- The block and its interface. -/
structure State where
  /-- READY (R26). -/
  ready : Bool
  /-- CFG (R21). -/
  cfg : CfgWord
  /-- The active strategy's registers and tables (R20). -/
  strategy : Strategy
  /-- The interface's input side: the requests the host has still to present, next one first (R70,
  R229). The model's own field. -/
  requests : List Request
  /-- The interface's output side: PRED if the last completed operation was a PREDICT, nothing if it
  was a TRAIN or an INIT, or if none has completed (R79). The model's own field. -/
  response : Option Direction
  deriving DecidableEq, Repr

/-- The block has no exceptions, traps or faults: the list of causes is empty (R195, R196). Nothing
raises a fault; no step can end in one. -/
inductive Fault : Type
  deriving DecidableEq, Repr

/-- Why a step stops without a next state. Each is safe: the model stops and nothing can be proved of
what follows (R198, R203). -/
inductive Refusal where
  /-- Raised by an arm of `exec` whose operation has no meaning in the model yet: no arm is such. Safe. -/
  | notModelled (mnemonic : String)
  /-- NotReady: raised by every PREDICT and TRAIN while READY = 0 (R199). Safe. -/
  | notReady
  /-- ReservedOp: raised by `step` on a request with `REQ[35:34] = 3` (R200). Safe. -/
  | reservedOp
  /-- ReservedBits: raised by `step` on a request with a reserved bit set (R201). Safe. -/
  | reservedBits
  /-- WidthOutOfRange: raised by INIT on a width its strategy reads that is 0 or above MAXBITS (R202). Safe. -/
  | widthOutOfRange
  /-- Raised by `exec` when it is handed a row of the opcode map that the active strategy does not
  select (R82 selects the row by CFG.VARIANT): no request is that operation in that state. `step`
  takes the row from CFG.VARIANT and never raises it in a state that meets the invariant. Safe. -/
  | notSelected
  deriving DecidableEq, Repr

/-- Power-on (R26, R215): READY = 0. The spec gives CFG and the tables no value there; CFG is 0 and
the strategy state that of code 0, which owns none (DESIGN CHOICE, notes/assumptions/1.md). No request
is waiting and no response has been given. -/
def State.reset : State where
  ready := false
  cfg := 0
  strategy := .static
  requests := []
  response := none

end Sys2Proof.Machine
end

