-- ==== Sys2Proof/Machine/Ops.lean ====
section
/-! DEFINITION. Ops: the named operations every meaning is built from: reading and writing a table
entry (spec/20_memory.md R51, R61), the primitives of spec/40_primitives.md, and the few updates of the
whole state. The block takes no exception and returns from none (R195, R207, R208), so there is no
operation for either. -/

namespace Sys2Proof.Machine

/-! ### Tables (R51, R61) -/

/-- `T[i]`: the entry at index `i`; an unlisted index holds the fill value `d`. -/
def Table.read {α : Type} (d : α) : Table α → Nat → α
  | [], _ => d
  | (k, v) :: t, i => if k = i then v else Table.read d t i

/-- The table without a listed entry at index `i`. -/
def Table.drop {α : Type} (t : Table α) (i : Nat) : Table α := t.filter (fun e => decide (e.1 ≠ i))

/-- The table with the entry `(i, v)` put before the first listed index above `i`. -/
def Table.insert {α : Type} : Table α → Nat → α → Table α
  | [], i, v => [(i, v)]
  | (k, u) :: t, i, v => if i < k then (i, v) :: (k, u) :: t else (k, u) :: Table.insert t i v

/-- `T[i] <- v`: replaces the whole entry. Writing the fill value leaves index `i` unlisted. -/
def Table.write {α : Type} [DecidableEq α] (d : α) (t : Table α) (i : Nat) (v : α) : Table α :=
  if v = d then Table.drop t i else Table.insert (Table.drop t i) i v

/-- The canonical form of a table of `n` entries with fill value `d`: indices strictly rising, all
below `n`, and no listed entry equal to the fill value. -/
abbrev Table.wf {α : Type} (d : α) (n : Nat) (t : Table α) : Prop :=
  t.Pairwise (fun a b => a.1 < b.1) ∧ ∀ e ∈ t, e.1 < n ∧ e.2 ≠ d

/-! ### The 2-bit saturating counter (R100 to R102, R107) -/

/-- SAT2_UPDATE(s, o): one step up to at most 3 on TAKEN, one step down to at least 0 on NOT_TAKEN
(R101). The step is taken on natural numbers, where `0 - 1 = 0`, and never wraps. -/
def sat2Update (s : Counter) (o : Direction) : Counter :=
  if o then BitVec.ofNat 2 (min (s.toNat + 1) 3) else BitVec.ofNat 2 (s.toNat - 1)

/-- READOUT(s): TAKEN exactly in WT and ST (R102). -/
def readout (s : Counter) : Direction := decide (2 ≤ s.toNat)

/-- SEL_CHOICE(s): 0 chooses the local sub-prediction, 1 the global one (R107). -/
def selChoice (s : Counter) : Bool := readout s

/-! ### Histories (R104) -/

/-- `mask(n) = 2 ^ n - 1` (R17). -/
def mask (n : Nat) : Nat := 2 ^ n - 1

/-- HSHIFT(h, o, w): shift left by one, insert the outcome at bit 0, keep `w` bits (R104). The shift is
formed on natural numbers, so nothing is lost before the mask; `n` is the storage width, `w ≤ n`. -/
def hshift {n : Nat} (h : BitVec n) (o : Direction) (w : Nat) : BitVec n :=
  BitVec.ofNat n ((h.toNat <<< 1 ||| o.toNat) &&& mask w)

/-! ### The 8-bit clamp (R105, R106) -/

/-- SAT8_STEP(w, up): the step is formed on integers and clamped to -128 … 127 (R105, R106). -/
def sat8Step (w : Weight) (up : Bool) : Weight :=
  if up then BitVec.ofInt 8 (min (w.toInt + 1) 127) else BitVec.ofInt 8 (max (w.toInt - 1) (-128))

/-! ### Updates of the whole state -/

/-- `respond PRED = b`: the response of a PREDICT, which writes nothing else (R18, R42). -/
def State.respond (s : State) (b : Direction) : State := { s with response := some b }

/-- The end of a TRAIN: the strategy's new state; no response (R42, R79). -/
def State.trained (s : State) (st : Strategy) : State := { s with strategy := st, response := none }

/-- A hardware reset pin, if an implementation has one, returns the block to the power-on state (R215).
The host's coming requests are not the block's, and stay. No request causes it, so no step calls it. -/
def State.resetPin (s : State) : State := { State.reset with requests := s.requests }

end Sys2Proof.Machine
end

