-- ==== Sys2Proof/Machine/Operands.lean ====
section
/-! DEFINITION. Operands: the fields of CFG (spec/10_state.md R21 to R25), every index computation
(spec/20_memory.md R52 to R58), and the values INIT fills registers and tables with (R49). -/

namespace Sys2Proof.Machine

/-! ### CFG (R21) -/

/-- CFG from its four fields: VARIANT 20:18, G 17:12, L 11:6, P 5:0 (R21). -/
def Cfg.pack (v : VariantCode) (g l p : WidthField) : CfgWord := (v ++ g ++ l ++ p : BitVec (3 + 6 + 6 + 6))
/-- CFG.VARIANT (R22). -/
def Cfg.variant (c : CfgWord) : VariantCode := c.extractLsb' 18 3
/-- CFG.G (R23). -/
def Cfg.gField (c : CfgWord) : WidthField := c.extractLsb' 12 6
/-- CFG.L (R24). -/
def Cfg.lField (c : CfgWord) : WidthField := c.extractLsb' 6 6
/-- CFG.P (R25). -/
def Cfg.pField (c : CfgWord) : WidthField := c.extractLsb' 0 6
/-- G, the global-history width (R8). -/
def Cfg.g (c : CfgWord) : Nat := (Cfg.gField c).toNat
/-- L, the local-history width (R9). -/
def Cfg.l (c : CfgWord) : Nat := (Cfg.lField c).toNat
/-- P, the address-index width of the LHT (R10). -/
def Cfg.p (c : CfgWord) : Nat := (Cfg.pField c).toNat

/-! ### Indices -/

/-- `ADDR[n-1:0]`: the low `n` bits of the address as they stand, bit 0 included (R53, R57). -/
def lowBits (a : Addr) (n : Nat) : Nat := a.toNat &&& mask n

/-- GS_INDEX(ADDR): "(GHR XOR address) masked to G bits" (R52). -/
def gsIndex (ghr : History) (a : Addr) (g : Nat) : Nat := (ghr.toNat ^^^ a.toNat) &&& mask g

/-- LHT_INDEX(ADDR) = ADDR[P-1:0] (R53). -/
def lhtIndex (a : Addr) (p : Nat) : Nat := lowBits a p

/-- PT_ROW(ADDR) = ADDR[7:0] (R57). -/
def ptRow (a : Addr) : Nat := lowBits a Config.rowIndexBits

/-! ### Fill values (R49) -/

/-- INIT_HIST cut to a register of `w` bits. -/
def initHistory (prm : Params) (n w : Nat) : BitVec n := BitVec.ofNat n (prm.initHist.toNat &&& mask w)

/-- The row whose 31 weights are all INIT_W (R36). -/
def initRow (prm : Params) : Row := Vector.replicate 31 prm.initW

/-! ### Table reads, each with its own fill value -/

/-- The counter of GS.PHT at the Gshare index (R121). -/
def gsCounter (prm : Params) (c : CfgWord) (gs : Gshare) (a : Addr) : Counter :=
  Table.read prm.initCtr gs.pht (gsIndex gs.ghr a (Cfg.g c))

/-- The local history `TN.LHT[ADDR[P-1:0]]` (R131, R53). -/
def tnLocalHistory (prm : Params) (c : CfgWord) (tn : Tournament) (a : Addr) : History :=
  Table.read (initHistory prm 32 (Cfg.l c)) tn.lht (lhtIndex a (Cfg.p c))

/-- LPT_INDEX(ADDR): the whole local history (R54). -/
def lptIndex (prm : Params) (c : CfgWord) (tn : Tournament) (a : Addr) : Nat :=
  (tnLocalHistory prm c tn a).toNat

/-- The counter of TN.LPT at the local history (R131). -/
def tnLocalCounter (prm : Params) (c : CfgWord) (tn : Tournament) (a : Addr) : Counter :=
  Table.read prm.initCtr tn.lpt (lptIndex prm c tn a)

/-- The counter of TN.GPT at the global history, with no contribution of the address (R56, R132). -/
def tnGlobalCounter (prm : Params) (tn : Tournament) : Counter :=
  Table.read prm.initCtr tn.gpt tn.ghr.toNat

/-- The entry of TN.SEL at the global history (R56, R143). -/
def tnSelector (prm : Params) (tn : Tournament) : Counter :=
  Table.read prm.initSel tn.sel tn.ghr.toNat

/-- The row of PC.PT that the address selects (R150). -/
def pcRow (prm : Params) (pc : Custom) (a : Addr) : Row := Table.read (initRow prm) pc.pt (ptRow a)

/-! ### Storage (R47) -/

/-- The bits of storage a strategy's state stands for under a configuration (R47). -/
def Strategy.storageBits (c : CfgWord) : Strategy → Nat
  | .static => 0
  | .gshare _ => Cfg.g c + 2 * 2 ^ Cfg.g c
  | .tournament _ =>
    Cfg.g c + Cfg.l c * 2 ^ Cfg.p c + 2 * 2 ^ Cfg.l c + 2 * 2 ^ Cfg.g c + 2 * 2 ^ Cfg.g c
  | .custom _ => Config.pghrWidth + 2 ^ Config.rowIndexBits * 31 * 8
  | .unknown => 0

end Sys2Proof.Machine
end

