-- ==== Sys2Proof/Machine/Flags.lean ====
section
/-! DEFINITION. Flags: the block has no condition codes and one flag, READY (R26, R46). Here are the
check of READY that every PREDICT and TRAIN begins with (R199), the way a meaning reaches the state of
the active strategy, and the conditions that are local to one operation: p1c and p2c, the selector's
step and the perceptron's gate (R137, R160). -/

namespace Sys2Proof.Machine

/-- What a meaning answers. -/
abbrev Result := Host.Outcome State Fault Refusal

/-- The meaning of a PREDICT or a TRAIN begins with READY: while it is 0 the request is refused (R199). -/
def State.whenReady (s : State) (k : Strategy → Result) : Result :=
  if s.ready then k s.strategy else .refused .notReady

/-- Reach the active strategy's state when that is Static. -/
def State.withStatic (s : State) (k : Result) : Result :=
  s.whenReady fun
    | .static => k
    | .gshare _ => .refused .notSelected
    | .tournament _ => .refused .notSelected
    | .custom _ => .refused .notSelected
    | .unknown => .refused .notSelected

/-- Reach the active strategy's state when that is Gshare. -/
def State.withGshare (s : State) (k : Gshare → Result) : Result :=
  s.whenReady fun
    | .static => .refused .notSelected
    | .gshare gs => k gs
    | .tournament _ => .refused .notSelected
    | .custom _ => .refused .notSelected
    | .unknown => .refused .notSelected

/-- Reach the active strategy's state when that is Tournament. -/
def State.withTournament (s : State) (k : Tournament → Result) : Result :=
  s.whenReady fun
    | .static => .refused .notSelected
    | .gshare _ => .refused .notSelected
    | .tournament tn => k tn
    | .custom _ => .refused .notSelected
    | .unknown => .refused .notSelected

/-- Reach the active strategy's state when that is Custom. -/
def State.withCustom (s : State) (k : Custom → Result) : Result :=
  s.whenReady fun
    | .static => .refused .notSelected
    | .gshare _ => .refused .notSelected
    | .tournament _ => .refused .notSelected
    | .custom pc => k pc
    | .unknown => .refused .notSelected

/-- Reach the active strategy's state when the strategy code is an unknown one. -/
def State.withUnknown (s : State) (k : Result) : Result :=
  s.whenReady fun
    | .static => .refused .notSelected
    | .gshare _ => .refused .notSelected
    | .tournament _ => .refused .notSelected
    | .custom _ => .refused .notSelected
    | .unknown => k

/-- Was a sub-prediction correct: p1c, p2c (R134). Local to one operation, not a flag (R46). -/
def correct (pred outcome : Direction) : Bool := pred == outcome

/-- The selector's step (R137): toward local when only the local sub-prediction was right, toward global
when only the global one was, else none. -/
def selStep (s : Counter) (p1c p2c : Bool) : Counter :=
  if p1c && !p2c then sat2Update s false
  else if p2c && !p1c then sat2Update s true
  else s

/-- The perceptron's update gate: `abs(y) <= THETA`, inclusive, or the prediction `y >= 0` was wrong
(R160). -/
def updateGate (prm : Params) (y : Int) (outcome : Direction) : Bool :=
  decide (y.natAbs ≤ prm.theta) || (decide (0 ≤ y) != outcome)

end Sys2Proof.Machine
end

