-- ==== Sys2Proof/Machine/CustomOps.lean ====
section
/-! DEFINITION. CustomOps: PREDICT.CUSTOM and TRAIN.CUSTOM, the perceptron (spec/44_perceptron.md). -/

namespace Sys2Proof.Machine

/-- The term of history weight `k + 1`, paired with bit `k` of PC.GHR: the weight when the bit is 1, its
negation (an integer, not clamped) when it is 0 (R152). Bits 0 to 29 are read, bit 30 is not (R153). -/
def percTerm (row : Row) (h : PercHistory) (k : Fin 30) : Int :=
  if h.getLsbD k.val then (row[k.val + 1]).toInt else -(row[k.val + 1]).toInt

/-- PERC_Y over a row and a history: the bias and the 30 history terms, an exact integer (R155, R156). -/
def percSum (row : Row) (h : PercHistory) : Int :=
  (row[0]).toInt + ((List.finRange 30).map (percTerm row h)).sum

/-- PERC_Y(ADDR) (R156). -/
def percY (prm : Params) (pc : Custom) (a : Addr) : Int := percSum (pcRow prm pc a) pc.ghr

/-- The response of PREDICT.CUSTOM: TAKEN iff `y >= 0` (R157). -/
def pcPredict (prm : Params) (pc : Custom) (a : Addr) : Direction := decide (0 ≤ percY prm pc a)

/-- Does lane `i` step up: the bias lane on TAKEN, lane `i` of a history weight when history bit `i - 1`
equals the outcome (R161). -/
def laneUp (h : PercHistory) (o : Direction) (i : Nat) : Bool :=
  if i = 0 then o else h.getLsbD (i - 1) == o

/-- The update of a row: every lane steps and is clamped (R161, R162). -/
def rowStep (row : Row) (h : PercHistory) (o : Direction) : Row :=
  Vector.ofFn fun i : Fin 31 => sat8Step row[i.val] (laneUp h o i.val)

/-- The effect of TRAIN.CUSTOM (R158): `y` from the old state, the gate, the 31 weights from the old
history, and last, always, the history shift (R159 to R164). -/
def pcTrain (prm : Params) (pc : Custom) (a : Addr) (o : Direction) : Custom where
  pt :=
    if updateGate prm (percY prm pc a) o then
      Table.write (initRow prm) pc.pt (ptRow a) (rowStep (pcRow prm pc a) pc.ghr o)
    else pc.pt
  ghr := hshift pc.ghr o Config.pghrWidth

/-- PREDICT.CUSTOM (R157). -/
def execPredictCustom (addr : Addr) (s : State) : Result :=
  s.withCustom fun pc => .next (s.respond (pcPredict Config.params pc addr))

/-- TRAIN.CUSTOM (R158). -/
def execTrainCustom (addr : Addr) (outcome : Direction) (s : State) : Result :=
  s.withCustom fun pc => .next (s.trained (.custom (pcTrain Config.params pc addr outcome)))

end Sys2Proof.Machine
end

