-- ==== Sys2Proof/Machine/GshareOps.lean ====
section
/-! DEFINITION. GshareOps: PREDICT.GSHARE and TRAIN.GSHARE (spec/42_gshare.md). -/

namespace Sys2Proof.Machine

/-- The response of PREDICT.GSHARE: the readout of the counter at the Gshare index (R121). -/
def gsPredict (prm : Params) (c : CfgWord) (gs : Gshare) (a : Addr) : Direction :=
  readout (gsCounter prm c gs a)

/-- The effect of TRAIN.GSHARE: the counter at the index formed from the GHR before the shift moves,
then the outcome is shifted into the GHR (R122, R123). -/
def gsTrain (prm : Params) (c : CfgWord) (gs : Gshare) (a : Addr) (o : Direction) : Gshare where
  pht := Table.write prm.initCtr gs.pht (gsIndex gs.ghr a (Cfg.g c)) (sat2Update (gsCounter prm c gs a) o)
  ghr := hshift gs.ghr o (Cfg.g c)

/-- PREDICT.GSHARE (R121). -/
def execPredictGshare (addr : Addr) (s : State) : Result :=
  s.withGshare fun gs => .next (s.respond (gsPredict Config.params s.cfg gs addr))

/-- TRAIN.GSHARE (R122). -/
def execTrainGshare (addr : Addr) (outcome : Direction) (s : State) : Result :=
  s.withGshare fun gs => .next (s.trained (.gshare (gsTrain Config.params s.cfg gs addr outcome)))

end Sys2Proof.Machine
end

