-- ==== Sys2Proof/Machine/Init.lean ====
section
/-! DEFINITION. Init: INIT, the block's only system operation (spec/45_dispatch_init.md R185 to R190). -/

namespace Sys2Proof.Machine

/-- A width is legal from 1 to MAXBITS (R14, R185). -/
def widthInRange (prm : Params) (f : WidthField) : Bool := decide (1 ≤ f.toNat) && decide (f.toNat ≤ prm.maxBits)

/-- INIT's checks: only the widths the selected strategy reads (R185, R186, R187, R188). -/
def initWidthsOk (prm : Params) (v : VariantCode) (g l p : WidthField) : Bool :=
  if v = 1 then widthInRange prm g
  else if v = 2 then widthInRange prm g && widthInRange prm l && widthInRange prm p
  else true

/-- The state INIT gives the selected strategy (R185, R49). An empty table holds its fill value at every
index: INIT_CTR in PHT, LPT and GPT, INIT_SEL in SEL, INIT_HIST in LHT, INIT_W in PT. -/
def initStrategy (prm : Params) (v : VariantCode) (g : WidthField) : Strategy :=
  if v = 0 then .static
  else if v = 1 then .gshare { ghr := initHistory prm 32 g.toNat, pht := [] }
  else if v = 2 then
    .tournament { ghr := initHistory prm 32 g.toNat, lht := [], lpt := [], gpt := [], sel := [] }
  else if v = 3 then .custom { ghr := initHistory prm 31 Config.pghrWidth, pt := [] }
  else .unknown

/-- The state right after an INIT whose widths are legal: nothing of the earlier instance survives
(R185, R189); the host's coming requests are not the block's, and stay. -/
def State.initialised (prm : Params) (v : VariantCode) (g l p : WidthField) (s : State) : State where
  ready := true
  cfg := Cfg.pack v g l p
  strategy := initStrategy prm v g
  requests := s.requests
  response := none

/-- INIT (R185): accepted whether READY is 0 or 1; refused when a width its strategy reads is out of
range (R202). -/
def execInit (variant : VariantCode) (g l p : WidthField) (s : State) : Result :=
  if initWidthsOk Config.params variant g l p then .next (State.initialised Config.params variant g l p s)
  else .refused .widthOutOfRange

end Sys2Proof.Machine
end

