-- ==== Sys2Proof/Machine/Static.lean ====
section
/-! DEFINITION. Static: PREDICT.STATIC and TRAIN.STATIC (spec/41_static.md). -/

namespace Sys2Proof.Machine

/-- PREDICT.STATIC always responds TAKEN (R115). -/
def execPredictStatic (_addr : Addr) (s : State) : Result := s.withStatic (.next (s.respond taken))

/-- TRAIN.STATIC does nothing (R116). -/
def execTrainStatic (_addr : Addr) (_outcome : Direction) (s : State) : Result :=
  s.withStatic (.next (s.trained .static))

end Sys2Proof.Machine
end

