-- ==== Sys2Proof/Machine/TournamentOps.lean ====
section
/-! DEFINITION. TournamentOps: PREDICT.TOURNAMENT and TRAIN.TOURNAMENT (spec/43_tournament.md). -/

namespace Sys2Proof.Machine

/-- LOCAL_PRED(ADDR) (R130, R131). -/
def tnLocalPred (prm : Params) (c : CfgWord) (tn : Tournament) (a : Addr) : Direction :=
  readout (tnLocalCounter prm c tn a)

/-- GLOBAL_PRED (R130, R132). -/
def tnGlobalPred (prm : Params) (tn : Tournament) : Direction := readout (tnGlobalCounter prm tn)

/-- The selector multiplexer: select 0 passes the local sub-prediction, 1 the global one (R133). -/
def tnPredict (prm : Params) (c : CfgWord) (tn : Tournament) (a : Addr) : Direction :=
  if selChoice (tnSelector prm tn) then tnGlobalPred prm tn else tnLocalPred prm c tn a

/-- The effect of TRAIN.TOURNAMENT, steps (a) to (d) of R134. Every value read is the one before the
operation: the counter at the old local history learns before that history shifts (R135), and the global
counter, the selector and the global history all use the old GHR (R136 to R139). -/
def tnTrain (prm : Params) (c : CfgWord) (tn : Tournament) (a : Addr) (o : Direction) : Tournament where
  lpt := Table.write prm.initCtr tn.lpt (lptIndex prm c tn a) (sat2Update (tnLocalCounter prm c tn a) o)
  lht := Table.write (initHistory prm 32 (Cfg.l c)) tn.lht (lhtIndex a (Cfg.p c))
    (hshift (tnLocalHistory prm c tn a) o (Cfg.l c))
  gpt := Table.write prm.initCtr tn.gpt tn.ghr.toNat (sat2Update (tnGlobalCounter prm tn) o)
  sel := Table.write prm.initSel tn.sel tn.ghr.toNat
    (selStep (tnSelector prm tn) (correct (tnLocalPred prm c tn a) o) (correct (tnGlobalPred prm tn) o))
  ghr := hshift tn.ghr o (Cfg.g c)

/-- PREDICT.TOURNAMENT (R133). -/
def execPredictTournament (addr : Addr) (s : State) : Result :=
  s.withTournament fun tn => .next (s.respond (tnPredict Config.params s.cfg tn addr))

/-- TRAIN.TOURNAMENT (R134). -/
def execTrainTournament (addr : Addr) (outcome : Direction) (s : State) : Result :=
  s.withTournament fun tn =>
    .next (s.trained (.tournament (tnTrain Config.params s.cfg tn addr outcome)))

end Sys2Proof.Machine
end

