-- ==== Sys2Proof/Machine/Unknown.lean ====
section
/-! DEFINITION. Unknown: the fallback of the dispatch for the strategy codes 4 to 7
(spec/45_dispatch_init.md R176 to R178). -/

namespace Sys2Proof.Machine

/-- PREDICT.UNKNOWN always responds NOT_TAKEN (R176). -/
def execPredictUnknown (_addr : Addr) (s : State) : Result := s.withUnknown (.next (s.respond notTaken))

/-- TRAIN.UNKNOWN does nothing (R177). -/
def execTrainUnknown (_addr : Addr) (_outcome : Direction) (s : State) : Result :=
  s.withUnknown (.next (s.trained .unknown))

end Sys2Proof.Machine
end

