-- ==== Sys2Proof/Syntax.lean ====
section
/-! DEFINITION. Syntax: the operations of spec/opcode_table.json, one constructor for each of its
eleven rows (R82). On the wire there are three requests, INIT, PREDICT and TRAIN (R70); which of the
rows a PREDICT or a TRAIN is depends on CFG.VARIANT (R175, R81). -/

namespace Sys2Proof

/-- One constructor per row of the opcode map (R82), with the operands that row's rule gives it. -/
inductive Instr where
  /-- INIT (R185): VARIANT, GBITS, LBITS, PBITS. -/
  | init (variant : VariantCode) (g l p : WidthField)
  /-- PREDICT.STATIC (R115). -/
  | predictStatic (addr : Addr)
  /-- PREDICT.GSHARE (R121). -/
  | predictGshare (addr : Addr)
  /-- PREDICT.TOURNAMENT (R133). -/
  | predictTournament (addr : Addr)
  /-- PREDICT.CUSTOM (R157). -/
  | predictCustom (addr : Addr)
  /-- PREDICT.UNKNOWN (R176). Bits 37:36 of its dispatch word do not take part (R82). -/
  | predictUnknown (addr : Addr)
  /-- TRAIN.STATIC (R116). -/
  | trainStatic (addr : Addr) (outcome : Direction)
  /-- TRAIN.GSHARE (R122). -/
  | trainGshare (addr : Addr) (outcome : Direction)
  /-- TRAIN.TOURNAMENT (R134). -/
  | trainTournament (addr : Addr) (outcome : Direction)
  /-- TRAIN.CUSTOM (R158). -/
  | trainCustom (addr : Addr) (outcome : Direction)
  /-- TRAIN.UNKNOWN (R177). Bits 37:36 of its dispatch word do not take part (R82). -/
  | trainUnknown (addr : Addr) (outcome : Direction)
  deriving DecidableEq, Repr

end Sys2Proof
end

