-- ==== Sys2Proof/Machine/Dispatch.lean ====
section
/-! DEFINITION. Dispatch: one arm per operation. -/

namespace Sys2Proof.Machine

def exec (i : Instr) (s : State) : Host.Outcome State Fault Refusal :=
  match i with
  | .init variant g l p => Sys2Proof.Machine.execInit variant g l p s
  | .predictStatic addr => Sys2Proof.Machine.execPredictStatic addr s
  | .predictGshare addr => Sys2Proof.Machine.execPredictGshare addr s
  | .predictTournament addr => Sys2Proof.Machine.execPredictTournament addr s
  | .predictCustom addr => Sys2Proof.Machine.execPredictCustom addr s
  | .predictUnknown addr => Sys2Proof.Machine.execPredictUnknown addr s
  | .trainStatic addr outcome => Sys2Proof.Machine.execTrainStatic addr outcome s
  | .trainGshare addr outcome => Sys2Proof.Machine.execTrainGshare addr outcome s
  | .trainTournament addr outcome => Sys2Proof.Machine.execTrainTournament addr outcome s
  | .trainCustom addr outcome => Sys2Proof.Machine.execTrainCustom addr outcome s
  | .trainUnknown addr outcome => Sys2Proof.Machine.execTrainUnknown addr outcome s

end Sys2Proof.Machine
end

