-- ==== Sys2Proof/WellFormed.lean ====
section
/-! DEFINITION. WellFormed: which operations the spec gives a meaning to. Every ADDR and every OUTCOME
is legal (R15, R195); the only operand check of the block is on the widths of an INIT, and only on
those its strategy reads (R80, R186). -/

namespace Sys2Proof

/-- A width the strategy reads must be in 1 to MAXBITS (R8, R9, R10, R80). -/
abbrev WidthField.Legal (prm : Params) (f : WidthField) : Prop := 1 ≤ f.toNat ∧ f.toNat ≤ prm.maxBits

/-- Well-formedness for a choice of the parameters: GBITS is checked when VARIANT is 1 or 2, LBITS and
PBITS when VARIANT is 2, nothing otherwise (R80). -/
def Instr.wfFor (prm : Params) : Instr → Bool
  | .init v g l p =>
    if v = 1 then decide (WidthField.Legal prm g)
    else if v = 2 then
      decide (WidthField.Legal prm g ∧ WidthField.Legal prm l ∧ WidthField.Legal prm p)
    else true
  | .predictStatic _ => true
  | .predictGshare _ => true
  | .predictTournament _ => true
  | .predictCustom _ => true
  | .predictUnknown _ => true
  | .trainStatic _ _ => true
  | .trainGshare _ _ => true
  | .trainTournament _ _ => true
  | .trainCustom _ _ => true
  | .trainUnknown _ _ => true

/-- Well-formedness with the spec's default parameters (MAXBITS = 32). -/
def Instr.wf (i : Instr) : Bool := i.wfFor Config.params

end Sys2Proof
end

