-- ==== Sys2Proof/Decode.lean ====
section
/-! DEFINITION. Decode: from request words and dispatch words to operations, and back
(spec/30_encoding.md). The decoder is total on all `2 ^ 36` requests and rejects by name; the encoder
is written from the format tables R72 to R74. -/

namespace Sys2Proof

/-! ### The fields of a request word (R71 to R74, R84) -/

/-- OP = REQ[35:34] (R71). -/
def Request.op (r : Request) : BitVec 2 := r.extractLsb' 34 2
/-- ADDR = REQ[31:0] of a PREDICT or a TRAIN (R72, R73). -/
def Request.addr (r : Request) : Addr := r.extractLsb' 0 32
/-- OUTCOME = REQ[32] of a TRAIN (R73). -/
def Request.outcome (r : Request) : Direction := r.getLsbD 32
/-- VARIANT = REQ[20:18] of an INIT (R74). -/
def Request.variant (r : Request) : VariantCode := r.extractLsb' 18 3
/-- GBITS = REQ[17:12] of an INIT (R74). -/
def Request.gbits (r : Request) : WidthField := r.extractLsb' 12 6
/-- LBITS = REQ[11:6] of an INIT (R74). -/
def Request.lbits (r : Request) : WidthField := r.extractLsb' 6 6
/-- PBITS = REQ[5:0] of an INIT (R74). -/
def Request.pbits (r : Request) : WidthField := r.extractLsb' 0 6
/-- The reserved bits REQ[33:32] of a PREDICT (R72). -/
def Request.predictReserved (r : Request) : BitVec 2 := r.extractLsb' 32 2
/-- The reserved bit REQ[33] of a TRAIN (R73). -/
def Request.trainReserved (r : Request) : Bool := r.getLsbD 33
/-- The reserved bits REQ[33:21] of an INIT (R74). -/
def Request.initReserved (r : Request) : BitVec 13 := r.extractLsb' 21 13

/-! ### Dispatch (R175) -/

/-- The operation a PREDICT performs under a strategy code (R175). -/
def dispatchPredict (variant : VariantCode) (a : Addr) : Instr :=
  if variant = 0 then .predictStatic a
  else if variant = 1 then .predictGshare a
  else if variant = 2 then .predictTournament a
  else if variant = 3 then .predictCustom a
  else .predictUnknown a

/-- The operation a TRAIN performs under a strategy code (R175). -/
def dispatchTrain (variant : VariantCode) (a : Addr) (o : Direction) : Instr :=
  if variant = 0 then .trainStatic a o
  else if variant = 1 then .trainGshare a o
  else if variant = 2 then .trainTournament a o
  else if variant = 3 then .trainCustom a o
  else .trainUnknown a o

/-! ### The decoder (R83) -/

/-- Why a request word is not an operation. -/
inductive Reject where
  /-- `REQ[35:34] = 3` (R75, R200). -/
  | reservedOp
  /-- A reserved bit is set (R76, R201). -/
  | reservedBits
  /-- A PREDICT or a TRAIN while READY = 0 (R199). -/
  | notReady
  deriving DecidableEq, Repr

/-- R83, check by check in its order: the operation that request `r` names when the flag READY is
`ready` and CFG.VARIANT is `variant`, or the reason it is refused with. -/
def decodeRequest (ready : Bool) (variant : VariantCode) (r : Request) : Except Reject Instr :=
  if Request.op r = 3 then .error .reservedOp
  else if Request.op r = 2 then
    if Request.initReserved r ≠ 0 then .error .reservedBits
    else .ok (.init (Request.variant r) (Request.gbits r) (Request.lbits r) (Request.pbits r))
  else if ready = false then .error .notReady
  else if Request.op r = 0 then
    if Request.predictReserved r ≠ 0 then .error .reservedBits
    else .ok (dispatchPredict variant (Request.addr r))
  else
    if Request.trainReserved r then .error .reservedBits
    else .ok (dispatchTrain variant (Request.addr r) (Request.outcome r))

/-- The strategy code DW[38:36] of a dispatch word (R81). -/
def DispatchWord.variant (dw : DispatchWord) : VariantCode := dw.extractLsb' 36 3
/-- The request DW[35:0] of a dispatch word (R81). -/
def DispatchWord.request (dw : DispatchWord) : Request := dw.extractLsb' 0 36

/-- The decoder over dispatch words (R81, R82): the block is ready and CFG.VARIANT is DW[38:36]. -/
def decode (dw : DispatchWord) : Except Reject Instr :=
  decodeRequest true (DispatchWord.variant dw) (DispatchWord.request dw)

/-- The decoder on a word numbered as spec/opcode_table.json numbers it: bit 0 is the least significant
bit of the 39-bit dispatch word. `nbits` is the row's width in whole bytes (40); bits above it are 0,
and a word with a bit above bit 38 set is no dispatch word. -/
def decodeTableWord (nbits w : Nat) : Option Instr :=
  let v := w % 2 ^ nbits
  if v < 2 ^ 39 then (decode (BitVec.ofNat 39 v)).toOption else none

/-! ### The encoder (R72, R73, R74) -/

/-- Format P: `00 ∥ 00 ∥ ADDR` (R72). -/
def predictWord (a : Addr) : Request := (0#2 ++ 0#2 ++ a : BitVec (2 + 2 + 32))
/-- Format T: `01 ∥ 0 ∥ OUTCOME ∥ ADDR` (R73). -/
def trainWord (a : Addr) (o : Direction) : Request :=
  (1#2 ++ 0#1 ++ BitVec.ofBool o ++ a : BitVec (2 + 1 + 1 + 32))
/-- Format I: `10 ∥ 0×13 ∥ VARIANT ∥ GBITS ∥ LBITS ∥ PBITS` (R74). -/
def initWord (v : VariantCode) (g l p : WidthField) : Request :=
  (2#2 ++ 0#13 ++ v ++ g ++ l ++ p : BitVec (2 + 13 + 3 + 6 + 6 + 6))

/-- `CFG.VARIANT ∥ REQ` (R81). -/
def dispatchWord (variant : VariantCode) (r : Request) : DispatchWord := (variant ++ r : BitVec (3 + 36))

/-- The request of an operation. -/
def encodeRequest : Instr → Request
  | .init v g l p => initWord v g l p
  | .predictStatic a => predictWord a
  | .predictGshare a => predictWord a
  | .predictTournament a => predictWord a
  | .predictCustom a => predictWord a
  | .predictUnknown a => predictWord a
  | .trainStatic a o => trainWord a o
  | .trainGshare a o => trainWord a o
  | .trainTournament a o => trainWord a o
  | .trainCustom a o => trainWord a o
  | .trainUnknown a o => trainWord a o

/-- The strategy code that stands before the request in an operation's dispatch word (R82). Where the
opcode map lets bits vary (`---` of INIT, the low two of `1--`), they are 0 here. -/
def rowVariant : Instr → VariantCode
  | .init _ _ _ _ => 0
  | .predictStatic _ => 0
  | .predictGshare _ => 1
  | .predictTournament _ => 2
  | .predictCustom _ => 3
  | .predictUnknown _ => 4
  | .trainStatic _ _ => 0
  | .trainGshare _ _ => 1
  | .trainTournament _ _ => 2
  | .trainCustom _ _ => 3
  | .trainUnknown _ _ => 4

/-- The encoder: the dispatch word of an operation. -/
def encode (i : Instr) : DispatchWord := dispatchWord (rowVariant i) (encodeRequest i)

/-! ### The opcode map (R82) -/

/-- A row of the opcode map: a word selects it when `DW AND mask = pattern` (R82). -/
structure OpcodeRow where
  mnemonic : String
  pattern : DispatchWord
  mask : DispatchWord
  deriving DecidableEq, Repr

/-- The eleven rows of R82, in its order. -/
def opcodeMap : List OpcodeRow := [
  ⟨"INIT", 0x0800000000, 0x0FFFE00000⟩,
  ⟨"PREDICT.STATIC", 0x0000000000, 0x7F00000000⟩,
  ⟨"PREDICT.GSHARE", 0x1000000000, 0x7F00000000⟩,
  ⟨"PREDICT.TOURNAMENT", 0x2000000000, 0x7F00000000⟩,
  ⟨"PREDICT.CUSTOM", 0x3000000000, 0x7F00000000⟩,
  ⟨"PREDICT.UNKNOWN", 0x4000000000, 0x4F00000000⟩,
  ⟨"TRAIN.STATIC", 0x0400000000, 0x7E00000000⟩,
  ⟨"TRAIN.GSHARE", 0x1400000000, 0x7E00000000⟩,
  ⟨"TRAIN.TOURNAMENT", 0x2400000000, 0x7E00000000⟩,
  ⟨"TRAIN.CUSTOM", 0x3400000000, 0x7E00000000⟩,
  ⟨"TRAIN.UNKNOWN", 0x4400000000, 0x4E00000000⟩]

/-- The mnemonic of an operation's row. -/
def mnemonicOf : Instr → String
  | .init _ _ _ _ => "INIT"
  | .predictStatic _ => "PREDICT.STATIC"
  | .predictGshare _ => "PREDICT.GSHARE"
  | .predictTournament _ => "PREDICT.TOURNAMENT"
  | .predictCustom _ => "PREDICT.CUSTOM"
  | .predictUnknown _ => "PREDICT.UNKNOWN"
  | .trainStatic _ _ => "TRAIN.STATIC"
  | .trainGshare _ _ => "TRAIN.GSHARE"
  | .trainTournament _ _ => "TRAIN.TOURNAMENT"
  | .trainCustom _ _ => "TRAIN.CUSTOM"
  | .trainUnknown _ _ => "TRAIN.UNKNOWN"

/-- Does a dispatch word select a row (R82). -/
def OpcodeRow.selects (row : OpcodeRow) (dw : DispatchWord) : Bool := dw &&& row.mask = row.pattern

/-- The pseudo-operation `BRANCH <addr>, <outcome>`: PREDICT then TRAIN (R86). -/
def branchRequests (a : Addr) (o : Direction) : List Request := [predictWord a, trainWord a o]

end Sys2Proof
end

