-- ==== Sys2Proof/Machine/Fetch.lean ====
section
/-! DEFINITION. Fetch: the block has no program counter and fetches no code (R45, R59); its next
operation is the next request of the host (R64, R70, R229). Here: taking that request, naming why it is
refused, and what stands in for a host that has sent the INIT a request needs. -/

namespace Sys2Proof.Machine

/-- The host presents its next request: the request and the state it meets. Nothing when the host has
none. -/
def State.fetch (s : State) : Option (Request × State) :=
  match s.requests with
  | [] => none
  | r :: rest => some (r, { s with requests := rest })

/-- The decoder's verdict on a request in this state: R83 over READY and CFG.VARIANT. -/
def State.decodeNext (s : State) (r : Request) : Except Reject Instr :=
  decodeRequest s.ready (Cfg.variant s.cfg) r

/-- The refusal that carries a decoder's verdict (R199, R200, R201). -/
def rejectRefusal : Reject → Refusal
  | .reservedOp => .reservedOp
  | .reservedBits => .reservedBits
  | .notReady => .notReady

/-- Is the strategy state the alternative that a strategy code selects (R20). -/
def Strategy.hasCode (v : VariantCode) : Strategy → Bool
  | .static => v = 0
  | .gshare _ => v = 1
  | .tournament _ => v = 2
  | .custom _ => v = 3
  | .unknown => decide (4 ≤ v.toNat)

/-- The width itself where it is legal, else 1. -/
def legalWidth (prm : Params) (f : WidthField) : WidthField := if widthInRange prm f then f else 1

/-- An instance of the strategy with code `v`: the present one if it is of that strategy, else the one
an INIT of that code leaves, with CFG's own widths where they are legal and 1 where they are not. -/
def State.instanceOf (prm : Params) (v : VariantCode) (s : State) : State :=
  if s.ready && decide (Cfg.variant s.cfg = v) && Strategy.hasCode v s.strategy then s
  else
    State.initialised prm v (legalWidth prm (Cfg.gField s.cfg)) (legalWidth prm (Cfg.lField s.cfg))
      (legalWidth prm (Cfg.pField s.cfg)) s

/-- The host presents request `r` before the ones it has still to present. -/
def State.withRequest (s : State) (r : Request) : State := { s with requests := r :: s.requests }

/-- The state in which the next step runs the row of a dispatch word: for an INIT, which reads no state,
the word's request is simply next; for any other, the instance is one of the strategy DW[38:36]. -/
def State.withDispatchWord (s : State) (dw : DispatchWord) : State :=
  if Request.op (DispatchWord.request dw) = 2 then s.withRequest (DispatchWord.request dw)
  else (s.instanceOf Config.params (DispatchWord.variant dw)).withRequest (DispatchWord.request dw)

end Sys2Proof.Machine
end

