-- ==== Sys2Proof/Machine/Step.lean ====
section
/-! DEFINITION. Step: one request of the host, performed to completion (R64, R70, R234). -/

namespace Sys2Proof.Machine

/-- One step: take the host's next request, decode it (R83) and perform it, or refuse it by name. With
no request waiting, nothing happens. -/
def step (s : State) : Host.Outcome State Fault Refusal :=
  match s.fetch with
  | none => .next s
  | some (r, t) =>
    match t.decodeNext r with
    | .error e => .refused (rejectRefusal e)
    | .ok i => exec i t

/-- The state in which the next step fetches and runs the operation of a word numbered as
spec/opcode_table.json numbers it, a 39-bit dispatch word. The word's request becomes the host's next
one. For a PREDICT or a TRAIN, whose row CFG.VARIANT selects, the INIT that must come first (R222) is
stood in for: the instance is made one of the strategy in bits 38:36 unless it is one already. -/
def State.withFetchWord (s : State) (nbits w : Nat) : State :=
  s.withDispatchWord (BitVec.ofNat 39 (w % 2 ^ nbits))

end Sys2Proof.Machine
end

