-- ==== Sys2Proof/Safety.lean ====
section
/-! DEFINITION. Safety: the invariant of a ready instance (spec/10_state.md R48), and the traces a host
that keeps its contract sends (spec/70_reset_and_hazards.md R225 to R230). -/

namespace Sys2Proof.Machine

/-- A width in 1 to MAXBITS (R14). -/
abbrev Cfg.WidthOk (prm : Params) (w : Nat) : Prop := 1 ≤ w ∧ w ≤ prm.maxBits

/-- Gshare's state fits its configuration: G legal, `GS.GHR < 2 ^ G`, PHT a table of `2 ^ G` entries (R48). -/
abbrev Gshare.Wf (prm : Params) (c : CfgWord) (gs : Gshare) : Prop :=
  Cfg.WidthOk prm (Cfg.g c) ∧ gs.ghr.toNat < 2 ^ Cfg.g c ∧ Table.wf prm.initCtr (2 ^ Cfg.g c) gs.pht

/-- Tournament's state fits its configuration: G, L, P legal, `TN.GHR < 2 ^ G`, every LHT entry below
`2 ^ L`, every table of its size (R48). -/
abbrev Tournament.Wf (prm : Params) (c : CfgWord) (tn : Tournament) : Prop :=
  Cfg.WidthOk prm (Cfg.g c) ∧ Cfg.WidthOk prm (Cfg.l c) ∧ Cfg.WidthOk prm (Cfg.p c) ∧
  tn.ghr.toNat < 2 ^ Cfg.g c ∧
  Table.wf (initHistory prm 32 (Cfg.l c)) (2 ^ Cfg.p c) tn.lht ∧
  (∀ e ∈ tn.lht, e.2.toNat < 2 ^ Cfg.l c) ∧
  Table.wf prm.initCtr (2 ^ Cfg.l c) tn.lpt ∧
  Table.wf prm.initCtr (2 ^ Cfg.g c) tn.gpt ∧
  Table.wf prm.initSel (2 ^ Cfg.g c) tn.sel

/-- Custom's state: PT a table of 256 rows (R48); widths of rows and weights are in the types. -/
abbrev Custom.Wf (prm : Params) (pc : Custom) : Prop :=
  Table.wf (initRow prm) (2 ^ Config.rowIndexBits) pc.pt

/-- The strategy state is the one CFG.VARIANT selects (R20) and fits the configuration (R48). -/
def Strategy.wf (prm : Params) (c : CfgWord) (st : Strategy) : Bool :=
  Strategy.hasCode (Cfg.variant c) st &&
  match st with
  | .static => true
  | .gshare gs => decide (gs.Wf prm c)
  | .tournament tn => decide (tn.Wf prm c)
  | .custom pc => decide (pc.Wf prm)
  | .unknown => true

/-- The invariant (R48): a ready instance's strategy state is well-formed. Nothing is said of a block
that is not ready, whose CFG and tables hold no value (R26). -/
abbrev State.Inv (s : State) : Prop := s.ready = true → s.strategy.wf Config.params s.cfg = true

/-- A request with a meaning once the block is ready: a PREDICT or a TRAIN with no reserved bit set
(R72, R73). -/
inductive BranchRequest : Request → Prop where
  | predict (a : Addr) : BranchRequest (predictWord a)
  | train (a : Addr) (o : Direction) : BranchRequest (trainWord a o)

/-- The trace of a host that keeps its contract: one INIT, then for each branch its PREDICT and its
TRAIN with the same address, in program order (R222, R225 to R229). -/
def contractTrace (v : VariantCode) (g l p : WidthField) (branches : List (Addr × Direction)) :
    List Request :=
  initWord v g l p :: branches.flatMap fun b => branchRequests b.1 b.2

/-- The step from this state is not refused (R203): the premise of every claim about a run. -/
abbrev State.Accepted (s : State) : Prop := ∃ t, step s = .next t

end Sys2Proof.Machine
end

