-- ==== Sys2Proof/Laws/State.lean ====
section
/-! SUPPORT. Laws/State: one lemma per field per update of the state, so that no proof unfolds a record
update. -/

namespace Sys2Proof.Machine

variable (s : State) (b : Direction) (st : Strategy) (r : Request)
variable (prm : Params) (v : VariantCode) (g l p : WidthField)

/-! ### State.respond -/
@[simp] theorem State.respond_ready : (s.respond b).ready = s.ready := rfl
@[simp] theorem State.respond_cfg : (s.respond b).cfg = s.cfg := rfl
@[simp] theorem State.respond_strategy : (s.respond b).strategy = s.strategy := rfl
@[simp] theorem State.respond_requests : (s.respond b).requests = s.requests := rfl
@[simp] theorem State.respond_response : (s.respond b).response = some b := rfl

/-! ### State.trained -/
@[simp] theorem State.trained_ready : (s.trained st).ready = s.ready := rfl
@[simp] theorem State.trained_cfg : (s.trained st).cfg = s.cfg := rfl
@[simp] theorem State.trained_strategy : (s.trained st).strategy = st := rfl
@[simp] theorem State.trained_requests : (s.trained st).requests = s.requests := rfl
@[simp] theorem State.trained_response : (s.trained st).response = none := rfl

/-! ### State.initialised -/
@[simp] theorem State.initialised_ready : (s.initialised prm v g l p).ready = true := rfl
@[simp] theorem State.initialised_cfg : (s.initialised prm v g l p).cfg = Cfg.pack v g l p := rfl
@[simp] theorem State.initialised_strategy : (s.initialised prm v g l p).strategy = initStrategy prm v g := rfl
@[simp] theorem State.initialised_requests : (s.initialised prm v g l p).requests = s.requests := rfl
@[simp] theorem State.initialised_response : (s.initialised prm v g l p).response = none := rfl

/-! ### State.withRequest -/
@[simp] theorem State.withRequest_ready : (s.withRequest r).ready = s.ready := rfl
@[simp] theorem State.withRequest_cfg : (s.withRequest r).cfg = s.cfg := rfl
@[simp] theorem State.withRequest_strategy : (s.withRequest r).strategy = s.strategy := rfl
@[simp] theorem State.withRequest_requests : (s.withRequest r).requests = r :: s.requests := rfl
@[simp] theorem State.withRequest_response : (s.withRequest r).response = s.response := rfl

/-! ### State.reset and State.resetPin -/
@[simp] theorem State.reset_ready : State.reset.ready = false := rfl
@[simp] theorem State.reset_cfg : State.reset.cfg = 0#21 := rfl
@[simp] theorem State.reset_strategy : State.reset.strategy = .static := rfl
@[simp] theorem State.reset_requests : State.reset.requests = [] := rfl
@[simp] theorem State.reset_response : State.reset.response = none := rfl
@[simp] theorem State.resetPin_ready : s.resetPin.ready = false := rfl
@[simp] theorem State.resetPin_cfg : s.resetPin.cfg = 0#21 := rfl
@[simp] theorem State.resetPin_strategy : s.resetPin.strategy = .static := rfl
@[simp] theorem State.resetPin_requests : s.resetPin.requests = s.requests := rfl
@[simp] theorem State.resetPin_response : s.resetPin.response = none := rfl

/-! ### Fetching the next request -/
theorem State.fetch_cons (rest : List Request) (h : s.requests = r :: rest) :
    s.fetch = some (r, { s with requests := rest }) := by
  simp only [State.fetch, h]

theorem State.fetch_nil (h : s.requests = []) : s.fetch = none := by
  simp only [State.fetch, h]

end Sys2Proof.Machine
end

