-- ==== Sys2Proof/Laws/Ops.lean ====
section
/-! SUPPORT. Laws/Ops: what each shared operation does, said once: the tables, the two clamps, the
history shift and the index computations. -/

namespace Sys2Proof.Machine

/-! ### Tables -/

section Tables
variable {α : Type} (d : α) (t : Table α) (i j : Nat) (v : α)

@[simp] theorem Table.read_nil : Table.read d [] i = d := rfl

theorem Table.drop_cons (e : Nat × α) :
    Table.drop (e :: t) i = if e.1 = i then Table.drop t i else e :: Table.drop t i := by
  unfold Table.drop
  rw [List.filter_cons]
  by_cases h : e.1 = i <;> simp [h]

theorem Table.read_drop_same : Table.read d (Table.drop t i) i = d := by
  induction t with
  | nil => rfl
  | cons e t ih =>
    rw [Table.drop_cons]
    split
    · exact ih
    · next h => simp [Table.read, h, ih]

theorem Table.read_drop_other (h : j ≠ i) : Table.read d (Table.drop t i) j = Table.read d t j := by
  induction t with
  | nil => rfl
  | cons e t ih =>
    rw [Table.drop_cons]
    split
    · next he => subst he; simp [Table.read, h.symm, ih]
    · simp [Table.read, ih]

theorem Table.mem_drop {t : Table α} {i : Nat} {e : Nat × α} : e ∈ Table.drop t i ↔ e ∈ t ∧ e.1 ≠ i := by
  simp [Table.drop]

theorem Table.mem_insert {t : Table α} {i : Nat} {v : α} {e : Nat × α} :
    e ∈ Table.insert t i v ↔ e = (i, v) ∨ e ∈ t := by
  induction t with
  | nil => simp [Table.insert]
  | cons x t ih =>
    unfold Table.insert
    split
    · simp
    · simp only [List.mem_cons, ih]; tauto

theorem Table.read_insert_other (h : j ≠ i) : Table.read d (Table.insert t i v) j = Table.read d t j := by
  induction t with
  | nil => simp [Table.insert, Table.read, h.symm]
  | cons e t ih =>
    unfold Table.insert
    split
    · simp [Table.read, h.symm]
    · simp [Table.read, ih]

theorem Table.read_insert_same (h : ∀ e ∈ t, e.1 ≠ i) : Table.read d (Table.insert t i v) i = v := by
  induction t with
  | nil => simp [Table.insert, Table.read]
  | cons e t ih =>
    unfold Table.insert
    split
    · simp [Table.read]
    · have he : e.1 ≠ i := h e (by simp)
      simp [Table.read, he, ih fun e he => h e (by simp [he])]

variable [DecidableEq α]

/-- A read of the index just written gives the value written. -/
@[simp] theorem Table.read_write_same : Table.read d (Table.write d t i v) i = v := by
  unfold Table.write
  split
  · next h => rw [h]; exact Table.read_drop_same d t i
  · exact Table.read_insert_same d _ i v fun e he => (Table.mem_drop.mp he).2

/-- A write leaves every other index alone. -/
theorem Table.read_write_other (h : j ≠ i) : Table.read d (Table.write d t i v) j = Table.read d t j := by
  unfold Table.write
  split
  · exact Table.read_drop_other d t i j h
  · rw [Table.read_insert_other d _ i j v h, Table.read_drop_other d t i j h]

/-- Where a listed entry of a written table comes from. -/
theorem Table.mem_write {e : Nat × α} (h : e ∈ Table.write d t i v) :
    e = (i, v) ∧ v ≠ d ∨ e ∈ t := by
  unfold Table.write at h
  split at h
  · exact .inr (Table.mem_drop.mp h).1
  · next hv =>
    rcases Table.mem_insert.mp h with h | h
    · exact .inl ⟨h, hv⟩
    · exact .inr (Table.mem_drop.mp h).1

omit [DecidableEq α] in
theorem Table.pairwise_drop (h : t.Pairwise fun a b => a.1 < b.1) :
    (Table.drop t i).Pairwise fun a b => a.1 < b.1 := h.filter _

omit [DecidableEq α] in
theorem Table.pairwise_insert (h : t.Pairwise fun a b => a.1 < b.1) (hi : ∀ e ∈ t, e.1 ≠ i) :
    (Table.insert t i v).Pairwise fun a b => a.1 < b.1 := by
  induction t with
  | nil => simp [Table.insert]
  | cons x t ih =>
    obtain ⟨hx, ht⟩ := List.pairwise_cons.mp h
    have hxi : x.1 ≠ i := hi x (by simp)
    have hti : ∀ e ∈ t, e.1 ≠ i := fun e he => hi e (by simp [he])
    unfold Table.insert
    split
    · next hlt =>
      refine List.pairwise_cons.mpr ⟨fun e he => ?_, h⟩
      rcases List.mem_cons.mp he with rfl | he
      · exact hlt
      · exact Nat.lt_trans hlt (hx e he)
    · next hlt =>
      refine List.pairwise_cons.mpr ⟨fun e he => ?_, ih ht hti⟩
      rcases Table.mem_insert.mp he with rfl | he
      · show x.1 < i; omega
      · exact hx e he

omit [DecidableEq α] in
/-- The empty table is in canonical form: what INIT makes. -/
theorem Table.wf_nil (n : Nat) : Table.wf d n [] := by simp [Table.wf]

/-- Every write keeps the canonical form. -/
theorem Table.wf_write {n : Nat} (h : Table.wf d n t) (hi : i < n) : Table.wf d n (Table.write d t i v) := by
  refine ⟨?_, fun e he => ?_⟩
  · unfold Table.write
    split
    · exact Table.pairwise_drop t i h.1
    · exact Table.pairwise_insert _ i v (Table.pairwise_drop t i h.1) fun e he => (Table.mem_drop.mp he).2
  · rcases Table.mem_write d t i v he with ⟨rfl, hv⟩ | he
    · exact ⟨hi, hv⟩
    · exact h.2 e he

omit [DecidableEq α] in
/-- What a read finds: the fill value, or a listed entry. -/
theorem Table.read_cases : Table.read d t i = d ∨ (i, Table.read d t i) ∈ t := by
  induction t with
  | nil => exact .inl rfl
  | cons e t ih =>
    unfold Table.read
    split
    · next h => subst h; exact .inr (by simp)
    · rcases ih with h | h
      · exact .inl h
      · exact .inr (by simp [h])

omit [DecidableEq α] in
/-- An index below every listed one reads as the fill value. -/
theorem Table.read_of_lt (h : ∀ e ∈ t, i < e.1) : Table.read d t i = d := by
  rcases Table.read_cases d t i with h' | h'
  · exact h'
  · exact absurd (h _ h') (by simp)

end Tables

/-! ### The primitives of spec/40_primitives.md -/

/-- The whole table of SAT2_UPDATE and READOUT (R101, R102), as natural numbers. -/
theorem sat2Update_toNat (s : Counter) (o : Direction) :
    (sat2Update s o).toNat = if o then min (s.toNat + 1) 3 else s.toNat - 1 := by
  revert s o; decide

theorem mask_and (x n : Nat) : x &&& mask n = x % 2 ^ n := Nat.and_two_pow_sub_one_eq_mod x n

theorem shift_or (x : Nat) (o : Bool) : x <<< 1 ||| o.toNat = 2 * x + o.toNat := by
  cases o
  · simp [Nat.shiftLeft_eq, Nat.mul_comm]
  · have := Nat.shiftLeft_add_eq_or_of_lt (a := x) (b := 1) (i := 1) (by decide)
    rw [Bool.toNat_true, ← this, Nat.shiftLeft_eq]
    omega

/-- HSHIFT as arithmetic (R104): double, add the outcome, keep `w` bits. -/
theorem hshift_toNat {n : Nat} (h : BitVec n) (o : Direction) {w : Nat} (hw : w ≤ n) :
    (hshift h o w).toNat = (2 * h.toNat + o.toNat) % 2 ^ w := by
  unfold hshift
  rw [BitVec.toNat_ofNat, mask_and, shift_or]
  refine Nat.mod_eq_of_lt (Nat.lt_of_lt_of_le (Nat.mod_lt _ (Nat.two_pow_pos w)) ?_)
  exact Nat.pow_le_pow_right (by decide) hw

/-- A shifted history keeps to its width (R48). -/
theorem hshift_lt {n : Nat} (h : BitVec n) (o : Direction) (w : Nat) : (hshift h o w).toNat < 2 ^ w := by
  unfold hshift
  rw [BitVec.toNat_ofNat, mask_and]
  exact Nat.lt_of_le_of_lt (Nat.mod_le _ _) (Nat.mod_lt _ (Nat.two_pow_pos w))

/-- SAT8_STEP on the integers the weights stand for (R105). -/
theorem sat8Step_toInt (w : Weight) (up : Bool) :
    (sat8Step w up).toInt = if up then min (w.toInt + 1) 127 else max (w.toInt - 1) (-128) := by
  revert w up; decide

/-! ### Indices -/

theorem lowBits_eq (a : Addr) (n : Nat) : lowBits a n = a.toNat % 2 ^ n := mask_and _ _

theorem lowBits_lt (a : Addr) (n : Nat) : lowBits a n < 2 ^ n := by
  rw [lowBits_eq]; exact Nat.mod_lt _ (Nat.two_pow_pos n)

theorem gsIndex_lt (h : History) (a : Addr) (g : Nat) : gsIndex h a g < 2 ^ g := by
  unfold gsIndex; rw [mask_and]; exact Nat.mod_lt _ (Nat.two_pow_pos g)

theorem initHistory_lt (prm : Params) (n w : Nat) : (initHistory prm n w).toNat < 2 ^ w := by
  unfold initHistory
  rw [BitVec.toNat_ofNat, mask_and]
  exact Nat.lt_of_le_of_lt (Nat.mod_le _ _) (Nat.mod_lt _ (Nat.two_pow_pos w))

end Sys2Proof.Machine
end

