-- ==== Sys2Proof/Laws/Decode.lean ====
section
/-! SUPPORT. Laws/Decode: the fields of the words the encoder builds, the fields of CFG, and what the
decoder answers on each format. -/

namespace Sys2Proof

/-! ### Words as numbers -/

/-- Concatenation (R17) as arithmetic. -/
theorem append_toNat {n m : Nat} (x : BitVec n) (y : BitVec m) :
    (x ++ y).toNat = x.toNat * 2 ^ m + y.toNat := by
  rw [BitVec.toNat_append, ← Nat.shiftLeft_add_eq_or_of_lt y.isLt, Nat.shiftLeft_eq]

theorem predictWord_toNat (a : Addr) : (predictWord a).toNat = a.toNat := by
  unfold predictWord
  simp only [append_toNat]
  simp

theorem trainWord_toNat (a : Addr) (o : Direction) :
    (trainWord a o).toNat = 2 ^ 34 + o.toNat * 2 ^ 32 + a.toNat := by
  unfold trainWord
  simp only [append_toNat]
  cases o <;> simp

theorem initWord_toNat (v : VariantCode) (g l p : WidthField) :
    (initWord v g l p).toNat =
      2 * 2 ^ 34 + v.toNat * 2 ^ 18 + g.toNat * 2 ^ 12 + l.toNat * 2 ^ 6 + p.toNat := by
  unfold initWord
  simp only [append_toNat]
  simp
  omega

theorem dispatchWord_toNat (v : VariantCode) (r : Request) :
    (dispatchWord v r).toNat = v.toNat * 2 ^ 36 + r.toNat := by
  unfold dispatchWord
  rw [append_toNat]

/-- A contiguous field (R17, R84) as arithmetic. -/
theorem field_toNat {n : Nat} (x : BitVec n) (lo len : Nat) :
    (x.extractLsb' lo len).toNat = x.toNat / 2 ^ lo % 2 ^ len := by
  rw [BitVec.extractLsb'_toNat, Nat.shiftRight_eq_div_pow]

theorem bit_eq {n : Nat} (x : BitVec n) (i : Nat) : x.getLsbD i = decide (x.toNat / 2 ^ i % 2 = 1) := by
  rw [BitVec.getLsbD, Nat.testBit_eq_decide_div_mod_eq]

/-! ### The fields of a PREDICT word (R72) -/

theorem predictWord_op (a : Addr) : Request.op (predictWord a) = 0 := by
  apply BitVec.eq_of_toNat_eq
  have := a.isLt
  rw [Request.op, field_toNat, predictWord_toNat]
  simp
  omega

theorem predictWord_reserved (a : Addr) : Request.predictReserved (predictWord a) = 0 := by
  apply BitVec.eq_of_toNat_eq
  have := a.isLt
  rw [Request.predictReserved, field_toNat, predictWord_toNat]
  simp
  omega

theorem predictWord_addr (a : Addr) : Request.addr (predictWord a) = a := by
  apply BitVec.eq_of_toNat_eq
  have := a.isLt
  rw [Request.addr, field_toNat, predictWord_toNat]
  omega

/-! ### The fields of a TRAIN word (R73) -/

theorem trainWord_op (a : Addr) (o : Direction) : Request.op (trainWord a o) = 1 := by
  apply BitVec.eq_of_toNat_eq
  have := a.isLt
  have := Bool.toNat_le o
  rw [Request.op, field_toNat, trainWord_toNat]
  simp
  omega

theorem trainWord_reserved (a : Addr) (o : Direction) : Request.trainReserved (trainWord a o) = false := by
  have := a.isLt
  have := Bool.toNat_le o
  rw [Request.trainReserved, bit_eq, trainWord_toNat, decide_eq_false_iff_not]
  omega

theorem trainWord_outcome (a : Addr) (o : Direction) : Request.outcome (trainWord a o) = o := by
  have := a.isLt
  rw [Request.outcome, bit_eq, trainWord_toNat]
  cases o <;> simp <;> omega

theorem trainWord_addr (a : Addr) (o : Direction) : Request.addr (trainWord a o) = a := by
  apply BitVec.eq_of_toNat_eq
  have := a.isLt
  rw [Request.addr, field_toNat, trainWord_toNat]
  omega

/-! ### The fields of an INIT word (R74) -/

section Init
variable (v : VariantCode) (g l p : WidthField)

theorem initWord_op : Request.op (initWord v g l p) = 2 := by
  apply BitVec.eq_of_toNat_eq
  have := v.isLt; have := g.isLt; have := l.isLt; have := p.isLt
  rw [Request.op, field_toNat, initWord_toNat]
  simp
  omega

theorem initWord_reserved : Request.initReserved (initWord v g l p) = 0 := by
  apply BitVec.eq_of_toNat_eq
  have := v.isLt; have := g.isLt; have := l.isLt; have := p.isLt
  rw [Request.initReserved, field_toNat, initWord_toNat]
  simp
  omega

theorem initWord_variant : Request.variant (initWord v g l p) = v := by
  apply BitVec.eq_of_toNat_eq
  have := v.isLt; have := g.isLt; have := l.isLt; have := p.isLt
  rw [Request.variant, field_toNat, initWord_toNat]
  omega

theorem initWord_gbits : Request.gbits (initWord v g l p) = g := by
  apply BitVec.eq_of_toNat_eq
  have := v.isLt; have := g.isLt; have := l.isLt; have := p.isLt
  rw [Request.gbits, field_toNat, initWord_toNat]
  omega

theorem initWord_lbits : Request.lbits (initWord v g l p) = l := by
  apply BitVec.eq_of_toNat_eq
  have := v.isLt; have := g.isLt; have := l.isLt; have := p.isLt
  rw [Request.lbits, field_toNat, initWord_toNat]
  omega

theorem initWord_pbits : Request.pbits (initWord v g l p) = p := by
  apply BitVec.eq_of_toNat_eq
  have := v.isLt; have := g.isLt; have := l.isLt; have := p.isLt
  rw [Request.pbits, field_toNat, initWord_toNat]
  omega

end Init

/-! ### The fields of a dispatch word (R81) -/

theorem dispatchWord_variant (v : VariantCode) (r : Request) :
    DispatchWord.variant (dispatchWord v r) = v := by
  apply BitVec.eq_of_toNat_eq
  have := v.isLt; have := r.isLt
  rw [DispatchWord.variant, field_toNat, dispatchWord_toNat]
  omega

theorem dispatchWord_request (v : VariantCode) (r : Request) :
    DispatchWord.request (dispatchWord v r) = r := by
  apply BitVec.eq_of_toNat_eq
  have := v.isLt; have := r.isLt
  rw [DispatchWord.request, field_toNat, dispatchWord_toNat]
  omega

/-! ### What the decoder answers on each format (R83) -/

theorem decodeRequest_predictWord (v : VariantCode) (a : Addr) :
    decodeRequest true v (predictWord a) = .ok (dispatchPredict v a) := by
  simp [decodeRequest, predictWord_op, predictWord_reserved, predictWord_addr]

theorem decodeRequest_trainWord (v : VariantCode) (a : Addr) (o : Direction) :
    decodeRequest true v (trainWord a o) = .ok (dispatchTrain v a o) := by
  simp [decodeRequest, trainWord_op, trainWord_reserved, trainWord_addr, trainWord_outcome]

theorem decodeRequest_initWord (ready : Bool) (v' v : VariantCode) (g l p : WidthField) :
    decodeRequest ready v' (initWord v g l p) = .ok (.init v g l p) := by
  simp [decodeRequest, initWord_op, initWord_reserved, initWord_variant, initWord_gbits,
    initWord_lbits, initWord_pbits]

namespace Machine

/-! ### The fields of CFG (R21) -/

section Cfg
variable (v : VariantCode) (g l p : WidthField)

theorem Cfg.pack_toNat :
    (Cfg.pack v g l p).toNat = v.toNat * 2 ^ 18 + g.toNat * 2 ^ 12 + l.toNat * 2 ^ 6 + p.toNat := by
  unfold Cfg.pack
  simp only [append_toNat]
  omega

@[simp] theorem Cfg.variant_pack : Cfg.variant (Cfg.pack v g l p) = v := by
  apply BitVec.eq_of_toNat_eq
  have := v.isLt; have := g.isLt; have := l.isLt; have := p.isLt
  rw [Cfg.variant, field_toNat, Cfg.pack_toNat]
  omega

@[simp] theorem Cfg.gField_pack : Cfg.gField (Cfg.pack v g l p) = g := by
  apply BitVec.eq_of_toNat_eq
  have := v.isLt; have := g.isLt; have := l.isLt; have := p.isLt
  rw [Cfg.gField, field_toNat, Cfg.pack_toNat]
  omega

@[simp] theorem Cfg.lField_pack : Cfg.lField (Cfg.pack v g l p) = l := by
  apply BitVec.eq_of_toNat_eq
  have := v.isLt; have := g.isLt; have := l.isLt; have := p.isLt
  rw [Cfg.lField, field_toNat, Cfg.pack_toNat]
  omega

@[simp] theorem Cfg.pField_pack : Cfg.pField (Cfg.pack v g l p) = p := by
  apply BitVec.eq_of_toNat_eq
  have := v.isLt; have := g.isLt; have := l.isLt; have := p.isLt
  rw [Cfg.pField, field_toNat, Cfg.pack_toNat]
  omega

@[simp] theorem Cfg.g_pack : Cfg.g (Cfg.pack v g l p) = g.toNat := by rw [Cfg.g, Cfg.gField_pack]
@[simp] theorem Cfg.l_pack : Cfg.l (Cfg.pack v g l p) = l.toNat := by rw [Cfg.l, Cfg.lField_pack]
@[simp] theorem Cfg.p_pack : Cfg.p (Cfg.pack v g l p) = p.toNat := by rw [Cfg.p, Cfg.pField_pack]

end Cfg

end Machine

end Sys2Proof
end

