-- ==== Sys2Proof/Laws/PerInstr.lean ====
section
/-! SUPPORT. Laws/PerInstr: statements made for every operation, one lemma per constructor. The family
RowSelect says that the encoder's dispatch word of an operation selects that operation's row of the
opcode map (spec/30_encoding.md R82). -/

namespace Sys2Proof

/-! ### Masks as arithmetic -/

theorem and_field (x lo len : Nat) : x &&& (2 ^ len - 1) * 2 ^ lo = x / 2 ^ lo % 2 ^ len * 2 ^ lo := by
  apply Nat.eq_of_testBit_eq
  intro i
  rw [Nat.testBit_and, Nat.testBit_mul_two_pow, Nat.testBit_mul_two_pow, Nat.testBit_mod_two_pow,
    Nat.testBit_two_pow_sub_one, Nat.testBit_div_two_pow]
  by_cases h : lo ≤ i
  · rw [Nat.sub_add_cancel h]; simp [h, Bool.and_comm]
  · simp [h]

theorem or_disjoint (a b lo : Nat) (hb : b < 2 ^ lo) : a * 2 ^ lo ||| b = a * 2 ^ lo + b := by
  rw [← Nat.shiftLeft_eq, Nat.shiftLeft_add_eq_or_of_lt hb]

variable (dw : DispatchWord)

/-- The mask of an INIT: bits 35 to 21. -/
theorem and_initMask : (dw &&& 0x0FFFE00000#39).toNat = dw.toNat / 2 ^ 21 % 2 ^ 15 * 2 ^ 21 := by
  rw [BitVec.toNat_and]; exact and_field _ 21 15

/-- The mask of a PREDICT under a known strategy: bits 38 to 32. -/
theorem and_predictMask : (dw &&& 0x7F00000000#39).toNat = dw.toNat / 2 ^ 32 % 2 ^ 7 * 2 ^ 32 := by
  rw [BitVec.toNat_and]; exact and_field _ 32 7

/-- The mask of a TRAIN under a known strategy: bits 38 to 33. -/
theorem and_trainMask : (dw &&& 0x7E00000000#39).toNat = dw.toNat / 2 ^ 33 % 2 ^ 6 * 2 ^ 33 := by
  rw [BitVec.toNat_and]; exact and_field _ 33 6

/-- The mask of a PREDICT under an unknown strategy: bit 38 and bits 35 to 32. -/
theorem and_predictUnknownMask : (dw &&& 0x4F00000000#39).toNat =
    dw.toNat / 2 ^ 38 % 2 * 2 ^ 38 + dw.toNat / 2 ^ 32 % 2 ^ 4 * 2 ^ 32 := by
  have h : (0x4F00000000#39).toNat = (2 ^ 1 - 1) * 2 ^ 38 ||| (2 ^ 4 - 1) * 2 ^ 32 := by decide
  rw [BitVec.toNat_and, h, Nat.and_or_distrib_left, and_field, and_field, or_disjoint _ _ 38 (by omega), pow_one]

/-- The mask of a TRAIN under an unknown strategy: bit 38 and bits 35 to 33. -/
theorem and_trainUnknownMask : (dw &&& 0x4E00000000#39).toNat =
    dw.toNat / 2 ^ 38 % 2 * 2 ^ 38 + dw.toNat / 2 ^ 33 % 2 ^ 3 * 2 ^ 33 := by
  have h : (0x4E00000000#39).toNat = (2 ^ 1 - 1) * 2 ^ 38 ||| (2 ^ 3 - 1) * 2 ^ 33 := by decide
  rw [BitVec.toNat_and, h, Nat.and_or_distrib_left, and_field, and_field, or_disjoint _ _ 38 (by omega), pow_one]

/-! ### Every operation's word selects its row -/

/-- The dispatch word of the operation selects a row with the operation's mnemonic (R82). -/
def Laws.RowSelect.Statement (i : Instr) : Prop :=
  ∃ row ∈ opcodeMap, row.mnemonic = mnemonicOf i ∧ row.selects (encode i) = true

theorem selects_of_toNat (row : OpcodeRow) (h : (dw &&& row.mask).toNat = row.pattern.toNat) :
    row.selects dw = true := by
  rw [OpcodeRow.selects, decide_eq_true_eq]; exact BitVec.eq_of_toNat_eq h

theorem Laws.RowSelect.init (v : VariantCode) (g l p : WidthField) :
    Laws.RowSelect.Statement (.init v g l p) := by
  refine ⟨opcodeMap[0], by simp [opcodeMap], rfl, selects_of_toNat _ _ ?_⟩
  have := v.isLt; have := g.isLt; have := l.isLt; have := p.isLt
  show (_ &&& 0x0FFFE00000#39).toNat = 0x0800000000
  rw [and_initMask, encode, dispatchWord_toNat, encodeRequest, initWord_toNat]
  simp [rowVariant]
  omega

theorem Laws.RowSelect.predictStatic (a : Addr) : Laws.RowSelect.Statement (.predictStatic a) := by
  refine ⟨opcodeMap[1], by simp [opcodeMap], rfl, selects_of_toNat _ _ ?_⟩
  have := a.isLt
  show (_ &&& 0x7F00000000#39).toNat = 0x0000000000
  rw [and_predictMask, encode, dispatchWord_toNat, encodeRequest, predictWord_toNat]
  simp [rowVariant]
  omega

theorem Laws.RowSelect.predictGshare (a : Addr) : Laws.RowSelect.Statement (.predictGshare a) := by
  refine ⟨opcodeMap[2], by simp [opcodeMap], rfl, selects_of_toNat _ _ ?_⟩
  have := a.isLt
  show (_ &&& 0x7F00000000#39).toNat = 0x1000000000
  rw [and_predictMask, encode, dispatchWord_toNat, encodeRequest, predictWord_toNat]
  simp [rowVariant]
  omega

theorem Laws.RowSelect.predictTournament (a : Addr) :
    Laws.RowSelect.Statement (.predictTournament a) := by
  refine ⟨opcodeMap[3], by simp [opcodeMap], rfl, selects_of_toNat _ _ ?_⟩
  have := a.isLt
  show (_ &&& 0x7F00000000#39).toNat = 0x2000000000
  rw [and_predictMask, encode, dispatchWord_toNat, encodeRequest, predictWord_toNat]
  simp [rowVariant]
  omega

theorem Laws.RowSelect.predictCustom (a : Addr) : Laws.RowSelect.Statement (.predictCustom a) := by
  refine ⟨opcodeMap[4], by simp [opcodeMap], rfl, selects_of_toNat _ _ ?_⟩
  have := a.isLt
  show (_ &&& 0x7F00000000#39).toNat = 0x3000000000
  rw [and_predictMask, encode, dispatchWord_toNat, encodeRequest, predictWord_toNat]
  simp [rowVariant]
  omega

theorem Laws.RowSelect.predictUnknown (a : Addr) : Laws.RowSelect.Statement (.predictUnknown a) := by
  refine ⟨opcodeMap[5], by simp [opcodeMap], rfl, selects_of_toNat _ _ ?_⟩
  have := a.isLt
  show (_ &&& 0x4F00000000#39).toNat = 0x4000000000
  rw [and_predictUnknownMask, encode, dispatchWord_toNat, encodeRequest, predictWord_toNat]
  simp [rowVariant]
  omega

theorem Laws.RowSelect.trainStatic (a : Addr) (o : Direction) :
    Laws.RowSelect.Statement (.trainStatic a o) := by
  refine ⟨opcodeMap[6], by simp [opcodeMap], rfl, selects_of_toNat _ _ ?_⟩
  have := a.isLt; have := Bool.toNat_le o
  show (_ &&& 0x7E00000000#39).toNat = 0x0400000000
  rw [and_trainMask, encode, dispatchWord_toNat, encodeRequest, trainWord_toNat]
  simp [rowVariant]
  omega

theorem Laws.RowSelect.trainGshare (a : Addr) (o : Direction) :
    Laws.RowSelect.Statement (.trainGshare a o) := by
  refine ⟨opcodeMap[7], by simp [opcodeMap], rfl, selects_of_toNat _ _ ?_⟩
  have := a.isLt; have := Bool.toNat_le o
  show (_ &&& 0x7E00000000#39).toNat = 0x1400000000
  rw [and_trainMask, encode, dispatchWord_toNat, encodeRequest, trainWord_toNat]
  simp [rowVariant]
  omega

theorem Laws.RowSelect.trainTournament (a : Addr) (o : Direction) :
    Laws.RowSelect.Statement (.trainTournament a o) := by
  refine ⟨opcodeMap[8], by simp [opcodeMap], rfl, selects_of_toNat _ _ ?_⟩
  have := a.isLt; have := Bool.toNat_le o
  show (_ &&& 0x7E00000000#39).toNat = 0x2400000000
  rw [and_trainMask, encode, dispatchWord_toNat, encodeRequest, trainWord_toNat]
  simp [rowVariant]
  omega

theorem Laws.RowSelect.trainCustom (a : Addr) (o : Direction) :
    Laws.RowSelect.Statement (.trainCustom a o) := by
  refine ⟨opcodeMap[9], by simp [opcodeMap], rfl, selects_of_toNat _ _ ?_⟩
  have := a.isLt; have := Bool.toNat_le o
  show (_ &&& 0x7E00000000#39).toNat = 0x3400000000
  rw [and_trainMask, encode, dispatchWord_toNat, encodeRequest, trainWord_toNat]
  simp [rowVariant]
  omega

theorem Laws.RowSelect.trainUnknown (a : Addr) (o : Direction) :
    Laws.RowSelect.Statement (.trainUnknown a o) := by
  refine ⟨opcodeMap[10], by simp [opcodeMap], rfl, selects_of_toNat _ _ ?_⟩
  have := a.isLt; have := Bool.toNat_le o
  show (_ &&& 0x4E00000000#39).toNat = 0x4400000000
  rw [and_trainUnknownMask, encode, dispatchWord_toNat, encodeRequest, trainWord_toNat]
  simp [rowVariant]
  omega

end Sys2Proof
end

