-- ==== Sys2Proof/Laws/Exec.lean ====
section
/-! SUPPORT. Laws/Exec: what each shared operation of a meaning answers, and the one list of everything
an operation can do. -/

namespace Sys2Proof.Machine

/-! ### READY and the active strategy -/

section Reach
variable {s t : State} {k : Result}

theorem State.whenReady_eq {k : Strategy → Result} (h : s.ready = true) : s.whenReady k = k s.strategy := by
  simp [State.whenReady, h]

/-- Not ready: refused (R199). -/
theorem State.whenReady_notReady {k : Strategy → Result} (h : s.ready = false) :
    s.whenReady k = .refused .notReady := by
  simp [State.whenReady, h]

theorem State.whenReady_next {k : Strategy → Result} (h : s.whenReady k = .next t) :
    s.ready = true ∧ k s.strategy = .next t := by
  unfold State.whenReady at h
  split at h
  · next hr => exact ⟨hr, h⟩
  · cases h

theorem State.withStatic_eq (h : s.ready = true) (hs : s.strategy = .static) : s.withStatic k = k := by
  simp [State.withStatic, State.whenReady_eq h, hs]

theorem State.withStatic_notReady (h : s.ready = false) : s.withStatic k = .refused .notReady :=
  State.whenReady_notReady h

theorem State.withStatic_next (h : s.withStatic k = .next t) :
    s.ready = true ∧ s.strategy = .static ∧ k = .next t := by
  obtain ⟨hr, h⟩ := State.whenReady_next h
  cases hs : s.strategy <;> rw [hs] at h <;> first | exact ⟨hr, rfl, h⟩ | cases h

theorem State.withUnknown_eq (h : s.ready = true) (hs : s.strategy = .unknown) : s.withUnknown k = k := by
  simp [State.withUnknown, State.whenReady_eq h, hs]

theorem State.withUnknown_notReady (h : s.ready = false) : s.withUnknown k = .refused .notReady :=
  State.whenReady_notReady h

theorem State.withUnknown_next (h : s.withUnknown k = .next t) :
    s.ready = true ∧ s.strategy = .unknown ∧ k = .next t := by
  obtain ⟨hr, h⟩ := State.whenReady_next h
  cases hs : s.strategy <;> rw [hs] at h <;> first | exact ⟨hr, rfl, h⟩ | cases h

theorem State.withGshare_eq {k : Gshare → Result} {gs : Gshare} (h : s.ready = true)
    (hs : s.strategy = .gshare gs) : s.withGshare k = k gs := by
  simp [State.withGshare, State.whenReady_eq h, hs]

theorem State.withGshare_notReady {k : Gshare → Result} (h : s.ready = false) : s.withGshare k = .refused .notReady :=
  State.whenReady_notReady h

theorem State.withGshare_next {k : Gshare → Result} (h : s.withGshare k = .next t) :
    s.ready = true ∧ ∃ gs, s.strategy = .gshare gs ∧ k gs = .next t := by
  obtain ⟨hr, h⟩ := State.whenReady_next h
  cases hs : s.strategy <;> rw [hs] at h <;> first | exact ⟨hr, _, rfl, h⟩ | cases h

theorem State.withTournament_eq {k : Tournament → Result} {tn : Tournament} (h : s.ready = true)
    (hs : s.strategy = .tournament tn) : s.withTournament k = k tn := by
  simp [State.withTournament, State.whenReady_eq h, hs]

theorem State.withTournament_notReady {k : Tournament → Result} (h : s.ready = false) : s.withTournament k = .refused .notReady :=
  State.whenReady_notReady h

theorem State.withTournament_next {k : Tournament → Result} (h : s.withTournament k = .next t) :
    s.ready = true ∧ ∃ tn, s.strategy = .tournament tn ∧ k tn = .next t := by
  obtain ⟨hr, h⟩ := State.whenReady_next h
  cases hs : s.strategy <;> rw [hs] at h <;> first | exact ⟨hr, _, rfl, h⟩ | cases h

theorem State.withCustom_eq {k : Custom → Result} {pc : Custom} (h : s.ready = true)
    (hs : s.strategy = .custom pc) : s.withCustom k = k pc := by
  simp [State.withCustom, State.whenReady_eq h, hs]

theorem State.withCustom_notReady {k : Custom → Result} (h : s.ready = false) : s.withCustom k = .refused .notReady :=
  State.whenReady_notReady h

theorem State.withCustom_next {k : Custom → Result} (h : s.withCustom k = .next t) :
    s.ready = true ∧ ∃ pc, s.strategy = .custom pc ∧ k pc = .next t := by
  obtain ⟨hr, h⟩ := State.whenReady_next h
  cases hs : s.strategy <;> rw [hs] at h <;> first | exact ⟨hr, _, rfl, h⟩ | cases h

end Reach

/-! ### The perceptron's lanes -/

/-- Lane `i` of an updated row (R161): it depends on its own weight and its own input only. -/
theorem rowStep_lane (row : Row) (h : PercHistory) (o : Direction) (i : Nat) (hi : i < 31) :
    (rowStep row h o)[i] = sat8Step row[i] (laneUp h o i) := by
  simp [rowStep]

theorem initRow_lane (prm : Params) (i : Nat) (hi : i < 31) : (initRow prm)[i] = prm.initW := by
  simp [initRow]

/-! ### Everything an operation can do -/

/-- What a TRAIN can make of the active strategy's state (R122, R134, R158, R116, R177). -/
inductive TrainedTo (c : CfgWord) : Strategy → Strategy → Prop where
  | static : TrainedTo c .static .static
  | gshare (gs : Gshare) (a : Addr) (o : Direction) :
    TrainedTo c (.gshare gs) (.gshare (gsTrain Config.params c gs a o))
  | tournament (tn : Tournament) (a : Addr) (o : Direction) :
    TrainedTo c (.tournament tn) (.tournament (tnTrain Config.params c tn a o))
  | custom (pc : Custom) (a : Addr) (o : Direction) :
    TrainedTo c (.custom pc) (.custom (pcTrain Config.params pc a o))
  | unknown : TrainedTo c .unknown .unknown

/-- If an operation answers a next state, it is an INIT with legal widths, a PREDICT that responds and
writes nothing else, or a TRAIN that writes the active strategy's state and nothing else. -/
theorem exec_next_cases {i : Instr} {s t : State} (h : exec i s = .next t) :
    (∃ v g l p, i = .init v g l p ∧ initWidthsOk Config.params v g l p = true ∧
      t = State.initialised Config.params v g l p s) ∨
    (s.ready = true ∧ ∃ b, t = s.respond b) ∨
    (s.ready = true ∧ ∃ st, TrainedTo s.cfg s.strategy st ∧ t = s.trained st) := by
  cases i with
  | init v g l p =>
    simp only [exec, execInit] at h
    split at h
    · next hw => cases h; exact .inl ⟨v, g, l, p, rfl, hw, rfl⟩
    · cases h
  | predictStatic a =>
    obtain ⟨hr, -, h⟩ := State.withStatic_next h
    cases h; exact .inr (.inl ⟨hr, _, rfl⟩)
  | predictGshare a =>
    obtain ⟨hr, _, -, h⟩ := State.withGshare_next h
    cases h; exact .inr (.inl ⟨hr, _, rfl⟩)
  | predictTournament a =>
    obtain ⟨hr, _, -, h⟩ := State.withTournament_next h
    cases h; exact .inr (.inl ⟨hr, _, rfl⟩)
  | predictCustom a =>
    obtain ⟨hr, _, -, h⟩ := State.withCustom_next h
    cases h; exact .inr (.inl ⟨hr, _, rfl⟩)
  | predictUnknown a =>
    obtain ⟨hr, -, h⟩ := State.withUnknown_next h
    cases h; exact .inr (.inl ⟨hr, _, rfl⟩)
  | trainStatic a o =>
    obtain ⟨hr, hs, h⟩ := State.withStatic_next h
    cases h; exact .inr (.inr ⟨hr, .static, by rw [hs]; exact .static, rfl⟩)
  | trainGshare a o =>
    obtain ⟨hr, gs, hs, h⟩ := State.withGshare_next h
    cases h; exact .inr (.inr ⟨hr, _, hs ▸ .gshare gs a o, rfl⟩)
  | trainTournament a o =>
    obtain ⟨hr, tn, hs, h⟩ := State.withTournament_next h
    cases h; exact .inr (.inr ⟨hr, _, hs ▸ .tournament tn a o, rfl⟩)
  | trainCustom a o =>
    obtain ⟨hr, pc, hs, h⟩ := State.withCustom_next h
    cases h; exact .inr (.inr ⟨hr, _, hs ▸ .custom pc a o, rfl⟩)
  | trainUnknown a o =>
    obtain ⟨hr, hs, h⟩ := State.withUnknown_next h
    cases h; exact .inr (.inr ⟨hr, .unknown, by rw [hs]; exact .unknown, rfl⟩)

/-- A step that answers a next state: no request was waiting and nothing happened, or the head request
decoded to an operation, which `exec` performed on the state without that request. -/
theorem step_next_cases {s t : State} (h : step s = .next t) :
    (s.requests = [] ∧ t = s) ∨
    ∃ r rest i, s.requests = r :: rest ∧ decodeRequest s.ready (Cfg.variant s.cfg) r = .ok i ∧
      exec i { s with requests := rest } = .next t := by
  unfold step at h
  cases hq : s.requests with
  | nil =>
    rw [State.fetch_nil s hq] at h
    cases h; exact .inl ⟨rfl, rfl⟩
  | cons r rest =>
    rw [State.fetch_cons s r rest hq] at h
    refine .inr ⟨r, rest, ?_⟩
    simp only [State.decodeNext] at h
    split at h
    · cases h
    · next i hi => exact ⟨i, rfl, hi, h⟩

end Sys2Proof.Machine
end

