-- ==== Sys2Proof/Laws/Run.lean ====
section
/-! SUPPORT. Laws/Run: how a step and a run of several steps unfold. -/

namespace Sys2Proof.Machine

/-- A step whose next request decodes performs the operation. -/
theorem step_of_decode {s : State} {r : Request} {rest : List Request} {i : Instr}
    (h : s.requests = r :: rest) (hd : decodeRequest s.ready (Cfg.variant s.cfg) r = .ok i) :
    step s = exec i { s with requests := rest } := by
  unfold step
  rw [State.fetch_cons s r rest h]
  simp only [State.decodeNext, hd]

/-- A step whose next request is rejected is refused by the name of the rejection. -/
theorem step_of_reject {s : State} {r : Request} {rest : List Request} {e : Reject}
    (h : s.requests = r :: rest) (hd : decodeRequest s.ready (Cfg.variant s.cfg) r = .error e) :
    step s = .refused (rejectRefusal e) := by
  unfold step
  rw [State.fetch_cons s r rest h]
  simp only [State.decodeNext, hd]

theorem run_zero (s : State) : Host.Core.run core 0 s = .next s := rfl

theorem run_succ {s t : State} (n : Nat) (h : step s = .next t) :
    Host.Core.run core (n + 1) s = Host.Core.run core n t := by
  have h' : core.step s = .next t := h
  simp only [Host.Core.run, h']

/-- A run of `m + n` steps is a run of `m` and then, from where that ended, a run of `n` (R64). -/
theorem run_add {s t : State} (m n : Nat) (h : Host.Core.run core m s = .next t) :
    Host.Core.run core (m + n) s = Host.Core.run core n t := by
  induction m generalizing s with
  | zero =>
    cases h
    rw [Nat.zero_add]
  | succ m ih =>
    rw [Nat.add_right_comm]
    cases hs : step s with
    | next u =>
      rw [run_succ _ hs] at h
      rw [run_succ _ hs]
      exact ih h
    | fault f => nomatch f
    | refused r =>
      have h' : core.step s = .refused r := hs
      simp only [Host.Core.run, h'] at h
      cases h

end Sys2Proof.Machine
end

