-- ==== Sys2Proof/Certificates/Slice0/Obligations.lean ====
section
/-! DEFINITION. Obligations: what is stated of the machine for the provers, from the numbered rules of
the spec. Where a statement rests on a decision of the spec (spec/92_eei_decisions.md) or on a choice of
the model's own, its docstring says so. In the statements about one PREDICT or TRAIN the clause about its
dispatch word rests on the encoding decisions D4 and D23, the clause about READY on D7.

Reading a table here is `Table.read fill table index`; the fill values written out are those INIT gives
(R49): 1 for PHT, LPT, GPT and SEL, 0 for LHT, the zero row for PT. -/

open Sys2Proof Sys2Proof.Machine

/-! ### The primitives (spec/40_primitives.md) -/

/-- R101, R102: SAT2_UPDATE moves one step toward the outcome and is clamped to 0 … 3; READOUT is TAKEN
exactly in WT and ST. -/
def Obligations.CounterStepsOnceAndSaturates : Prop :=
  ∀ s : Counter,
    (sat2Update s taken).toNat = min (s.toNat + 1) 3 ∧
    (sat2Update s notTaken).toNat = s.toNat - 1 ∧
    readout s = decide (2 ≤ s.toNat)

/-- Derived (spec/40_primitives.md section 1, law (b), (c) and (d) of R103): three or more equal outcomes
drive any counter to its end and hold it there; one contrary outcome does not flip a strong state's
readout and flips a weak one's. -/
def Obligations.CounterSaturatesInThreeAndHasHysteresis : Prop :=
  (∀ (s : Counter) (n : Nat), 3 ≤ n →
    (fun c => sat2Update c notTaken)^[n] s = 0 ∧ (fun c => sat2Update c taken)^[n] s = 3) ∧
  readout (sat2Update 3 notTaken) = taken ∧ readout (sat2Update 0 taken) = notTaken ∧
  readout (sat2Update 2 notTaken) = notTaken ∧ readout (sat2Update 1 taken) = taken

/-- R104: HSHIFT, in any storage that holds the register's `w` bits: the formula, the newest outcome at
bit 0, every other bit one place up, nothing at or above bit `w`. -/
def Obligations.HistoryShiftInsertsAtBitZero : Prop :=
  ∀ (n : Nat) (h : BitVec n) (o : Direction) (w : Nat), 1 ≤ w → w ≤ n →
    (hshift h o w).toNat = (h.toNat <<< 1 ||| o.toNat) &&& (2 ^ w - 1) ∧
    (hshift h o w).getLsbD 0 = o ∧
    (∀ k, k + 1 < w → (hshift h o w).getLsbD (k + 1) = h.getLsbD k) ∧
    (∀ k, w ≤ k → (hshift h o w).getLsbD k = false)

/-- R105: SAT8_STEP on the integer a weight stands for: one step, clamped to -128 … 127, never wrapped. -/
def Obligations.WeightStepsOnceAndSaturates : Prop :=
  ∀ w : Weight,
    (sat8Step w true).toInt = min (w.toInt + 1) 127 ∧
    (sat8Step w false).toInt = max (w.toInt - 1) (-128)

/-- Derived (spec/43_tournament.md section 2, the table of R137): the selector's step: the entry moves only
when exactly one sub-predictor was right, and toward that one: local is down with floor 0, global is up
with ceiling 3. -/
def Obligations.SelectorMovesTowardTheCorrectOne : Prop :=
  ∀ s : Counter,
    selStep s false false = s ∧ selStep s true true = s ∧
    (selStep s true false).toNat = s.toNat - 1 ∧
    (selStep s false true).toNat = min (s.toNat + 1) 3

/-- Derived (spec/43_tournament.md section 3, R140): `n` trainings in which only the local sub-predictor
was right take a selector entry down by `n`, never below 0; the mirror takes it up, never above 3. -/
def Obligations.SelectorMonotoneUnderRepeatedTraining : Prop :=
  ∀ (s : Counter) (n : Nat),
    ((fun c => selStep c true false)^[n] s).toNat = s.toNat - n ∧
    ((fun c => selStep c false true)^[n] s).toNat = min (s.toNat + n) 3

/-! ### Index spaces (spec/20_memory.md) -/

/-- R52: the Gshare index is "(GHR XOR address) masked to G bits"; for a register of G bits it is the XOR
of the register with the low G bits of the address; it is always a G-bit value. -/
def Obligations.GshareIndexIsMaskedXor : Prop :=
  ∀ (h : History) (a : Addr) (g : Nat),
    gsIndex h a g = (h.toNat ^^^ a.toNat) % 2 ^ g ∧
    gsIndex h a g < 2 ^ g ∧
    (h.toNat < 2 ^ g → gsIndex h a g = h.toNat ^^^ (a.toNat % 2 ^ g))

/-- Derived (spec/20_memory.md section 1, R55, over the index rules R52, R53, R57; which address bits are
used is decision D13): addresses that agree on the bits their strategy indexes with are the same to every
PREDICT and every TRAIN. -/
def Obligations.AliasedAddressesShareTheirEntries : Prop :=
  ∀ (a b : Addr) (o : Direction) (s : State),
    (a.toNat % 2 ^ Cfg.g s.cfg = b.toNat % 2 ^ Cfg.g s.cfg →
      exec (.predictGshare a) s = exec (.predictGshare b) s ∧
      exec (.trainGshare a o) s = exec (.trainGshare b o) s) ∧
    (a.toNat % 2 ^ Cfg.p s.cfg = b.toNat % 2 ^ Cfg.p s.cfg →
      exec (.predictTournament a) s = exec (.predictTournament b) s ∧
      exec (.trainTournament a o) s = exec (.trainTournament b o) s) ∧
    (a.toNat % 256 = b.toNat % 256 →
      exec (.predictCustom a) s = exec (.predictCustom b) s ∧
      exec (.trainCustom a o) s = exec (.trainCustom b o) s)

/-- Derived (the model's own form of a table, notes/assumptions/3.md; spec/20_memory.md section 1): two
tables in canonical form that read the same at every index are the same data. -/
def Obligations.CanonicalTablesThatReadAlikeAreEqual : Prop :=
  ∀ (d : Counter) (n : Nat) (t u : Table Counter), Table.wf d n t → Table.wf d n u →
    (∀ i, Table.read d t i = Table.read d u i) → t = u

/-! ### Static (spec/41_static.md) -/

/-- R115: PREDICT.STATIC responds TAKEN whatever the address and writes nothing; its word; the refusal
when the block is not ready. -/
def Obligations.PredictStaticRespondsTaken : Prop :=
  ∀ (a : Addr) (s : State),
    decode (dispatchWord 0 (predictWord a)) = .ok (.predictStatic a) ∧
    (s.ready = true → s.strategy = .static →
      exec (.predictStatic a) s = .next { s with response := some taken }) ∧
    (s.ready = false → exec (.predictStatic a) s = .refused .notReady)

/-- R116: TRAIN.STATIC leaves the instance exactly as it was and gives no response. -/
def Obligations.TrainStaticChangesNothing : Prop :=
  ∀ (a : Addr) (o : Direction) (s : State),
    decode (dispatchWord 0 (trainWord a o)) = .ok (.trainStatic a o) ∧
    (s.ready = true → s.strategy = .static →
      exec (.trainStatic a o) s = .next { s with response := none }) ∧
    (s.ready = false → exec (.trainStatic a o) s = .refused .notReady)

/-- Derived (spec/41_static.md R117; for the fallback spec/45_dispatch_init.md section 1): after any
sequence of PREDICT and TRAIN requests a PREDICT responds TAKEN under Static and NOT_TAKEN under an
unknown code, and the instance is as it was. -/
def Obligations.ConstantStrategiesStayConstant : Prop :=
  ∀ (s : State) (earlier : List Request) (a : Addr),
    s.ready = true → (∀ r ∈ earlier, BranchRequest r) → s.requests = earlier ++ [predictWord a] →
    (Cfg.variant s.cfg = 0 → s.strategy = .static →
      Host.Core.run core (earlier.length + 1) s = .next { s with requests := [], response := some taken }) ∧
    (4 ≤ (Cfg.variant s.cfg).toNat → s.strategy = .unknown →
      Host.Core.run core (earlier.length + 1) s =
        .next { s with requests := [], response := some notTaken })

/-! ### Gshare (spec/42_gshare.md) -/

/-- R121: PREDICT.GSHARE responds the readout of the PHT counter at GHR XOR ADDR and writes nothing. -/
def Obligations.PredictGshareReadsTheXorIndexedCounter : Prop :=
  ∀ (a : Addr) (s : State) (gs : Gshare),
    decode (dispatchWord 1 (predictWord a)) = .ok (.predictGshare a) ∧
    (s.ready = true → s.strategy = .gshare gs →
      exec (.predictGshare a) s = .next { s with
        response := some (readout (Table.read 1#2 gs.pht ((gs.ghr.toNat ^^^ a.toNat) % 2 ^ Cfg.g s.cfg))) }) ∧
    (s.ready = false → exec (.predictGshare a) s = .refused .notReady)

/-- R122: TRAIN.GSHARE moves the counter at the index formed from the GHR before the shift, leaves every
other counter, then shifts the outcome into the GHR; READY, CFG and the coming requests are unchanged
and there is no response. -/
def Obligations.TrainGshareUpdatesThatCounterThenShifts : Prop :=
  ∀ (a : Addr) (o : Direction) (s : State) (gs : Gshare) (i : Nat),
    i = (gs.ghr.toNat ^^^ a.toNat) % 2 ^ Cfg.g s.cfg →
    decode (dispatchWord 1 (trainWord a o)) = .ok (.trainGshare a o) ∧
    (s.ready = true → s.strategy = .gshare gs →
      ∃ gs' : Gshare,
        exec (.trainGshare a o) s = .next { s with strategy := .gshare gs', response := none } ∧
        Table.read 1#2 gs'.pht i = sat2Update (Table.read 1#2 gs.pht i) o ∧
        (∀ j, j ≠ i → Table.read 1#2 gs'.pht j = Table.read 1#2 gs.pht j) ∧
        gs'.ghr = hshift gs.ghr o (Cfg.g s.cfg)) ∧
    (s.ready = false → exec (.trainGshare a o) s = .refused .notReady)

/-- Derived (spec/10_state.md section 4, R28): from a GHR of 0, as INIT leaves it, after any trainings bit
`k` of GS.GHR, `k < G`, is the outcome of `k + 1` trainings ago, and 0 when there have been fewer. -/
def Obligations.GshareHistoryHoldsTheLastOutcomes : Prop :=
  ∀ (prm : Params) (c : CfgWord) (gs : Gshare) (ts : List (Addr × Direction)) (k : Nat),
    Cfg.g c ≤ 32 → k < Cfg.g c → gs.ghr = 0 →
    (ts.foldl (fun g t => gsTrain prm c g t.1 t.2) gs).ghr.getLsbD k =
      ((ts.reverse.map Prod.snd)[k]?).getD notTaken

/-- Derived (spec/42_gshare.md R124, with the Gshare start state of decision D22): from any state, an
INIT of Gshare with a legal G, then `n` branches at one address all TAKEN, then a PREDICT of that address:
it responds NOT_TAKEN as long as `n ≤ G`, and TAKEN from `n = G + 1` on. -/
def Obligations.GshareTurnsTakenAfterGPlusOneTrainings : Prop :=
  ∀ (s : State) (g l p : WidthField) (a : Addr) (n : Nat),
    1 ≤ g.toNat → g.toNat ≤ 32 →
    s.requests = contractTrace 1 g l p (List.replicate n (a, taken)) ++ [predictWord a] →
    ∃ t : State, Host.Core.run core (2 * n + 2) s = .next t ∧ t.response = some (decide (g.toNat + 1 ≤ n))

/-! ### Tournament (spec/43_tournament.md) -/

/-- R133 (with R131, R132): PREDICT.TOURNAMENT reads the local history, the local counter it indexes, the
global counter and the selector entry at the GHR, and responds the local sub-prediction when the selector
is below 2, the global one otherwise. -/
def Obligations.PredictTournamentMultiplexes : Prop :=
  ∀ (a : Addr) (s : State) (tn : Tournament) (lh : History) (p1 p2 : Direction) (sel : Counter),
    lh = Table.read 0#32 tn.lht (a.toNat % 2 ^ Cfg.p s.cfg) →
    p1 = readout (Table.read 1#2 tn.lpt lh.toNat) →
    p2 = readout (Table.read 1#2 tn.gpt tn.ghr.toNat) →
    sel = Table.read 1#2 tn.sel tn.ghr.toNat →
    decode (dispatchWord 2 (predictWord a)) = .ok (.predictTournament a) ∧
    (s.ready = true → s.strategy = .tournament tn →
      exec (.predictTournament a) s =
        .next { s with response := some (if sel.toNat < 2 then p1 else p2) }) ∧
    (s.ready = false → exec (.predictTournament a) s = .refused .notReady)

/-- R134 (with R136, R137, R138): TRAIN.TOURNAMENT, its four steps with every value they read taken before the
operation, and everything it leaves alone. That the local counter is the one at the old local history is
step (a) as R134 writes it (the spec's decision D12). -/
def Obligations.TrainTournamentUpdatesAllFourTables : Prop :=
  ∀ (a : Addr) (o : Direction) (s : State) (tn : Tournament) (pi g : Nat) (lh : History)
    (lc gc sc : Counter),
    pi = a.toNat % 2 ^ Cfg.p s.cfg → g = tn.ghr.toNat →
    lh = Table.read 0#32 tn.lht pi →
    lc = Table.read 1#2 tn.lpt lh.toNat → gc = Table.read 1#2 tn.gpt g → sc = Table.read 1#2 tn.sel g →
    decode (dispatchWord 2 (trainWord a o)) = .ok (.trainTournament a o) ∧
    (s.ready = true → s.strategy = .tournament tn →
      ∃ tn' : Tournament,
        exec (.trainTournament a o) s = .next { s with strategy := .tournament tn', response := none } ∧
        Table.read 1#2 tn'.lpt lh.toNat = sat2Update lc o ∧
        (∀ j, j ≠ lh.toNat → Table.read 1#2 tn'.lpt j = Table.read 1#2 tn.lpt j) ∧
        Table.read 0#32 tn'.lht pi = hshift lh o (Cfg.l s.cfg) ∧
        (∀ j, j ≠ pi → Table.read 0#32 tn'.lht j = Table.read 0#32 tn.lht j) ∧
        Table.read 1#2 tn'.gpt g = sat2Update gc o ∧
        (∀ j, j ≠ g → Table.read 1#2 tn'.gpt j = Table.read 1#2 tn.gpt j) ∧
        (readout lc = o → readout gc ≠ o → (Table.read 1#2 tn'.sel g).toNat = sc.toNat - 1) ∧
        (readout lc ≠ o → readout gc = o →
          (Table.read 1#2 tn'.sel g).toNat = min (sc.toNat + 1) 3) ∧
        ((readout lc = o ↔ readout gc = o) → Table.read 1#2 tn'.sel g = sc) ∧
        (∀ j, j ≠ g → Table.read 1#2 tn'.sel j = Table.read 1#2 tn.sel j) ∧
        tn'.ghr = hshift tn.ghr o (Cfg.g s.cfg)) ∧
    (s.ready = false → exec (.trainTournament a o) s = .refused .notReady)

/-- Derived (spec/43_tournament.md section 3, R141): the selector entry moves exactly when the two
sub-predictions differ, and toward the one that equalled the outcome; the final prediction plays no
part. -/
def Obligations.SelectorFollowsDisagreementOnly : Prop :=
  ∀ (prm : Params) (c : CfgWord) (tn : Tournament) (a : Addr) (o : Direction),
    (tnLocalPred prm c tn a = tnGlobalPred prm tn →
      tnSelector prm { tnTrain prm c tn a o with ghr := tn.ghr } = tnSelector prm tn) ∧
    (tnLocalPred prm c tn a ≠ tnGlobalPred prm tn →
      (tnSelector prm { tnTrain prm c tn a o with ghr := tn.ghr }).toNat =
        if tnLocalPred prm c tn a = o then (tnSelector prm tn).toNat - 1
        else min ((tnSelector prm tn).toNat + 1) 3)

/-- Derived (spec/10_state.md section 5, R31; the start value 0 is decision D8): from local histories of
0, after any trainings bit `k` of the entry an address `b` selects, `k < L`, is the outcome of the
`(k + 1)`-th most recent training whose address selected that entry, and 0 when there have been fewer. -/
def Obligations.LocalHistoryHoldsItsOwnOutcomes : Prop :=
  ∀ (c : CfgWord) (tn : Tournament) (ts : List (Addr × Direction)) (b : Addr) (k : Nat),
    Cfg.l c ≤ 32 → k < Cfg.l c → (∀ i, Table.read 0#32 tn.lht i = 0) →
    (Table.read 0#32 (ts.foldl (fun t x => tnTrain Config.params c t x.1 x.2) tn).lht
        (b.toNat % 2 ^ Cfg.p c)).getLsbD k =
      ((((ts.filter fun x => decide (x.1.toNat % 2 ^ Cfg.p c = b.toNat % 2 ^ Cfg.p c)).reverse.map
        Prod.snd))[k]?).getD notTaken

/-! ### Custom (spec/44_perceptron.md) -/

/-- R157 (with R150, R156): PREDICT.CUSTOM responds TAKEN iff `y ≥ 0`, where `y` is the bias weight plus,
for each of the 30 history weights, the weight when its history bit is set and its negation when it is
not, an exact integer; it writes nothing. -/
def Obligations.PredictCustomIsTheSignOfTheSum : Prop :=
  ∀ (a : Addr) (s : State) (pc : Custom) (w : Row) (y : Int),
    w = Table.read (Vector.replicate 31 0#8) pc.pt (a.toNat % 256) →
    y = (w[0]).toInt +
      ∑ k : Fin 30, (if pc.ghr.getLsbD k.val then (w[k.val + 1]).toInt else -(w[k.val + 1]).toInt) →
    decode (dispatchWord 3 (predictWord a)) = .ok (.predictCustom a) ∧
    (s.ready = true → s.strategy = .custom pc →
      exec (.predictCustom a) s = .next { s with response := some (decide (0 ≤ y)) }) ∧
    (s.ready = false → exec (.predictCustom a) s = .refused .notReady)

/-- R158 (with R161, R162): TRAIN.CUSTOM: when `|y| ≤ THETA` or the prediction was wrong, every weight of
the row steps up or down with its input and the outcome, clamped; otherwise the row stays; no other row
changes; the history always shifts, last. THETA is the model's named parameter; that it is 71 is decision
D10, on which this statement does not rest. -/
def Obligations.TrainCustomUpdatesTheRowThroughTheGate : Prop :=
  ∀ (a : Addr) (o : Direction) (s : State) (pc : Custom) (r : Nat) (w : Row) (y : Int),
    r = a.toNat % 256 → w = Table.read (Vector.replicate 31 0#8) pc.pt r →
    y = (w[0]).toInt +
      ∑ k : Fin 30, (if pc.ghr.getLsbD k.val then (w[k.val + 1]).toInt else -(w[k.val + 1]).toInt) →
    decode (dispatchWord 3 (trainWord a o)) = .ok (.trainCustom a o) ∧
    (s.ready = true → s.strategy = .custom pc →
      ∃ (pc' : Custom) (w' : Row),
        exec (.trainCustom a o) s = .next { s with strategy := .custom pc', response := none } ∧
        w' = Table.read (Vector.replicate 31 0#8) pc'.pt r ∧
        ((y.natAbs ≤ Config.params.theta ∨ decide (0 ≤ y) ≠ o) →
          (w'[0]).toInt = (if o then min ((w[0]).toInt + 1) 127 else max ((w[0]).toInt - 1) (-128)) ∧
          ∀ k : Fin 30, (w'[k.val + 1]).toInt =
            if pc.ghr.getLsbD k.val = o then min ((w[k.val + 1]).toInt + 1) 127
            else max ((w[k.val + 1]).toInt - 1) (-128)) ∧
        (¬(y.natAbs ≤ Config.params.theta ∨ decide (0 ≤ y) ≠ o) → w' = w) ∧
        (∀ j, j ≠ r → Table.read (Vector.replicate 31 0#8) pc'.pt j =
          Table.read (Vector.replicate 31 0#8) pc.pt j) ∧
        pc'.ghr = hshift pc.ghr o 31) ∧
    (s.ready = false → exec (.trainCustom a o) s = .refused .notReady)

/-- Derived (spec/44_perceptron.md section 3, R160, with THETA = 71 of decision D10): the gate is inclusive
at 71 and closed at 72 for a correct prediction, and open for every wrong one. -/
def Obligations.GateClosesOnlyWhenRightAndConfident : Prop :=
  ∀ (y : Int) (o : Direction),
    updateGate Config.params y o = false ↔ (72 ≤ y ∧ o = taken) ∨ (y ≤ -72 ∧ o = notTaken)

/-- Derived (spec/44_perceptron.md section 1, R154): the sum is in -3968 … 3967 for every row and history,
and both ends are reached. -/
def Obligations.PerceptronSumStaysInThirteenBits : Prop :=
  (∀ (row : Row) (h : PercHistory), -3968 ≤ percSum row h ∧ percSum row h ≤ 3967) ∧
  (∃ (row : Row) (h : PercHistory), percSum row h = 3967) ∧
  (∃ (row : Row) (h : PercHistory), percSum row h = -3968)

/-- Derived (spec/44_perceptron.md section 1, R153; the stored width is decision D11): two Custom states
that differ at most in bit 30 of the history give the same predictions and the same weights, and still
differ at most there after any training. -/
def Obligations.HistoryBitThirtyIsNeverRead : Prop :=
  ∀ (prm : Params) (pc pd : Custom), pc.pt = pd.pt →
    (∀ k, k < 30 → pc.ghr.getLsbD k = pd.ghr.getLsbD k) →
    ∀ (a : Addr) (o : Direction),
      pcPredict prm pc a = pcPredict prm pd a ∧
      (pcTrain prm pc a o).pt = (pcTrain prm pd a o).pt ∧
      ∀ k, k < 30 → (pcTrain prm pc a o).ghr.getLsbD k = (pcTrain prm pd a o).ghr.getLsbD k

/-- Derived (spec/44_perceptron.md section 3, corner case (d) of R165): an update in which no weight is at
a bound moves the sum of the same row and history by exactly 31 toward the outcome. -/
def Obligations.UnclampedUpdateMovesTheSumByThirtyOne : Prop :=
  ∀ (row : Row) (h : PercHistory) (o : Direction),
    (∀ i : Fin 31, -128 < (row[i.val]).toInt ∧ (row[i.val]).toInt < 127) →
    percSum (rowStep row h o) h = percSum row h + if o then 31 else -31

/-- Derived (spec/44_perceptron.md section 3, R166): once the 30 bits the sum reads are all ones and
`y > THETA`, training the address TAKEN again and again changes no weight for good. -/
def Obligations.ConfidentTakenRowStopsLearning : Prop :=
  ∀ (prm : Params) (pc : Custom) (a : Addr) (n : Nat),
    (∀ k, k < 30 → pc.ghr.getLsbD k = true) → (prm.theta : Int) < percY prm pc a →
    ((fun q => pcTrain prm q a taken)^[n] pc).pt = pc.pt ∧
    pcPredict prm ((fun q => pcTrain prm q a taken)^[n] pc) a = taken

/-! ### Dispatch, the fallback and INIT (spec/45_dispatch_init.md) -/

/-- R175: every PREDICT and every TRAIN is routed by CFG.VARIANT and by nothing else. -/
def Obligations.DispatchFollowsTheVariantTable : Prop :=
  ∀ (v : VariantCode) (a : Addr) (o : Direction),
    (v = 0 → decodeRequest true v (predictWord a) = .ok (.predictStatic a) ∧
      decodeRequest true v (trainWord a o) = .ok (.trainStatic a o)) ∧
    (v = 1 → decodeRequest true v (predictWord a) = .ok (.predictGshare a) ∧
      decodeRequest true v (trainWord a o) = .ok (.trainGshare a o)) ∧
    (v = 2 → decodeRequest true v (predictWord a) = .ok (.predictTournament a) ∧
      decodeRequest true v (trainWord a o) = .ok (.trainTournament a o)) ∧
    (v = 3 → decodeRequest true v (predictWord a) = .ok (.predictCustom a) ∧
      decodeRequest true v (trainWord a o) = .ok (.trainCustom a o)) ∧
    (4 ≤ v.toNat → decodeRequest true v (predictWord a) = .ok (.predictUnknown a) ∧
      decodeRequest true v (trainWord a o) = .ok (.trainUnknown a o))

/-- R176: PREDICT.UNKNOWN responds NOT_TAKEN whatever the address and writes nothing, under each of the
codes 4 to 7. -/
def Obligations.PredictUnknownRespondsNotTaken : Prop :=
  ∀ (a : Addr) (s : State) (v : VariantCode), 4 ≤ v.toNat →
    decode (dispatchWord v (predictWord a)) = .ok (.predictUnknown a) ∧
    (s.ready = true → s.strategy = .unknown →
      exec (.predictUnknown a) s = .next { s with response := some notTaken }) ∧
    (s.ready = false → exec (.predictUnknown a) s = .refused .notReady)

/-- R177: TRAIN.UNKNOWN is a no-op without a response, under each of the codes 4 to 7. -/
def Obligations.TrainUnknownChangesNothing : Prop :=
  ∀ (a : Addr) (o : Direction) (s : State) (v : VariantCode), 4 ≤ v.toNat →
    decode (dispatchWord v (trainWord a o)) = .ok (.trainUnknown a o) ∧
    (s.ready = true → s.strategy = .unknown →
      exec (.trainUnknown a o) s = .next { s with response := none }) ∧
    (s.ready = false → exec (.trainUnknown a o) s = .refused .notReady)

/-- Derived (spec/45_dispatch_init.md section 2, R185; READY is decision D7, the Tournament and Custom
values D8 and D9, the Gshare values D22): an INIT whose strategy reads no illegal width completes from
every state, ready or not: READY is 1, CFG holds the operands, there is no response, the coming requests
stay, and the strategy's registers and every entry of its tables hold their INIT values. -/
def Obligations.InitGivesEachStrategyItsStartState : Prop :=
  ∀ (v : VariantCode) (g l p : WidthField) (s : State),
    (Instr.init v g l p).wf = true →
    ∃ t : State,
      exec (.init v g l p) s = .next t ∧ t.ready = true ∧ t.response = none ∧ t.requests = s.requests ∧
      Cfg.variant t.cfg = v ∧ Cfg.gField t.cfg = g ∧ Cfg.lField t.cfg = l ∧ Cfg.pField t.cfg = p ∧
      (v = 0 → t.strategy = .static) ∧
      (v = 1 → ∃ gs, t.strategy = .gshare gs ∧ gs.ghr = 0 ∧ ∀ i, Table.read 1#2 gs.pht i = 1) ∧
      (v = 2 → ∃ tn, t.strategy = .tournament tn ∧ tn.ghr = 0 ∧
        (∀ i, Table.read 0#32 tn.lht i = 0) ∧ (∀ i, Table.read 1#2 tn.lpt i = 1) ∧
        (∀ i, Table.read 1#2 tn.gpt i = 1) ∧ (∀ i, Table.read 1#2 tn.sel i = 1)) ∧
      (v = 3 → ∃ pc, t.strategy = .custom pc ∧ pc.ghr = 0 ∧
        ∀ r, Table.read (Vector.replicate 31 0#8) pc.pt r = Vector.replicate 31 0#8) ∧
      (4 ≤ v.toNat → t.strategy = .unknown)

/-- Derived (spec/45_dispatch_init.md section 2, R186 to R188, and spec/30_encoding.md R80; MAXBITS = 32
and the refusal are decision D6): an INIT is refused, with WidthOutOfRange, exactly when a width its
strategy reads is 0 or above 32; the widths it does not read may hold any value. -/
def Obligations.InitChecksOnlyTheWidthsItReads : Prop :=
  ∀ (v : VariantCode) (g l p : WidthField) (s : State),
    exec (.init v g l p) s = .refused .widthOutOfRange ↔
      ((v = 1 ∨ v = 2) ∧ (g.toNat = 0 ∨ 32 < g.toNat)) ∨
      (v = 2 ∧ (l.toNat = 0 ∨ 32 < l.toNat ∨ p.toNat = 0 ∨ 32 < p.toNat))

/-- Derived (spec/45_dispatch_init.md section 2, R189, decision D16): nothing of an earlier instance
survives an INIT: from any two states with the same coming requests it gives the same result. -/
def Obligations.InitForgetsTheEarlierInstance : Prop :=
  ∀ (v : VariantCode) (g l p : WidthField) (s t : State), s.requests = t.requests →
    exec (.init v g l p) s = exec (.init v g l p) t

/-- Derived (spec/70_reset_and_hazards.md section 1, R221, over the start values of D8, D9 and D22): the
first prediction after a legal INIT, at any address: TAKEN under Static and Custom, NOT_TAKEN under
Gshare, Tournament and an unknown code. -/
def Obligations.FirstPredictionAfterInit : Prop :=
  ∀ (s : State) (v : VariantCode) (g l p : WidthField) (a : Addr),
    (Instr.init v g l p).wf = true → s.requests = [initWord v g l p, predictWord a] →
    ∃ t : State, Host.Core.run core 2 s = .next t ∧ t.response = some (decide (v = 0 ∨ v = 3))

/-! ### Encoding (spec/30_encoding.md) -/

/-- Derived (spec/30_encoding.md sections 1 and 4; the encodings are decisions D4 and D23): decoding the
dispatch word of any operation, with any operands, gives the operation back. -/
def Obligations.DecodeInvertsEncode : Prop :=
  ∀ i : Instr, decode (encode i) = .ok i

/-- Derived (spec/30_encoding.md sections 2 and 4, R76, R83; decisions D4, D7, D17): a request is accepted
as an operation exactly when it is that operation's word and, unless it is an INIT, the block is ready and
CFG.VARIANT selects the operation. -/
def Obligations.DecoderAcceptsExactlyTheEncodings : Prop :=
  ∀ (ready : Bool) (v : VariantCode) (r : Request) (i : Instr),
    decodeRequest ready v r = .ok i ↔
      (∃ v' g l p, i = .init v' g l p ∧ r = initWord v' g l p) ∨
      (ready = true ∧ ∃ a, i = dispatchPredict v a ∧ r = predictWord a) ∨
      (ready = true ∧ ∃ a o, i = dispatchTrain v a o ∧ r = trainWord a o)

/-- Derived (spec/30_encoding.md section 4, R82, decisions D4 and D23): the decoder and the opcode map
agree on all `2 ^ 39` dispatch words: a word selects a row exactly when it decodes to an operation with
that row's mnemonic. In particular no word selects two rows. -/
def Obligations.DecoderAgreesWithTheOpcodeMap : Prop :=
  ∀ (dw : DispatchWord) (row : OpcodeRow), row ∈ opcodeMap →
    (row.selects dw = true ↔ ∃ i, decode dw = .ok i ∧ mnemonicOf i = row.mnemonic)

/-- Derived (spec/95_test_vectors.md section 2.2 and the layouts of spec/30_encoding.md section 1): words
written out from the spec's formats decode to the operations they stand for. -/
def Obligations.WrittenWordsDecode : Prop :=
  decode 0x0800042000#39 = .ok (.init 1 2 0 0) ∧
  decode 0x080008928A#39 = .ok (.init 2 9 10 10) ∧
  decode 0x00DEADBEEF#39 = .ok (.predictStatic 0xDEADBEEF#32) ∧
  decode 0x1000000010#39 = .ok (.predictGshare 0x10#32) ∧
  decode 0x3500000010#39 = .ok (.trainCustom 0x10#32 taken) ∧
  decode 0x2400000010#39 = .ok (.trainTournament 0x10#32 notTaken) ∧
  decode 0x75FFFFFFFF#39 = .ok (.trainUnknown 0xFFFFFFFF#32 taken)

/-! ### Refusals and faults (spec/60_exceptions.md) -/

/-- Derived (spec/60_exceptions.md section 2, R199 to R201, and section 3, R206; decisions D7 and D17):
each malformed or early request is refused by name, in the order the spec fixes: ReservedOp first, for
INIT ReservedBits, for PREDICT and TRAIN NotReady before ReservedBits. -/
def Obligations.MalformedRequestsAreRefusedInOrder : Prop :=
  ∀ (s : State) (r : Request) (rest : List Request), s.requests = r :: rest →
    (Request.op r = 3 → step s = .refused .reservedOp) ∧
    (Request.op r = 2 → Request.initReserved r ≠ 0 → step s = .refused .reservedBits) ∧
    (Request.op r = 0 ∨ Request.op r = 1 → s.ready = false → step s = .refused .notReady) ∧
    (Request.op r = 0 → s.ready = true → Request.predictReserved r ≠ 0 →
      step s = .refused .reservedBits) ∧
    (Request.op r = 1 → s.ready = true → Request.trainReserved r = true →
      step s = .refused .reservedBits)

/-- R196: the list of exception causes is empty: no step of any state ends in a fault. -/
def Obligations.NothingFaults : Prop :=
  IsEmpty Fault ∧ ∀ (s : State) (f : Fault), step s ≠ .fault f

/-- Derived (spec/60_exceptions.md section 1, R195, and section 2, R204): in a ready instance that meets
the invariant, no PREDICT and no TRAIN can fail on any operand value; each completes, whatever came
before it. -/
def Obligations.EveryPredictAndTrainCompletes : Prop :=
  ∀ (s : State) (r : Request) (rest : List Request),
    s.Inv → s.ready = true → s.requests = r :: rest → BranchRequest r → ∃ t, step s = .next t

/-- Derived (the model's own refusal notSelected, notes/assumptions/5.md; spec/30_encoding.md section 4,
R81): a step never meets an operation that its state's strategy does not select. -/
def Obligations.StepNeverMeetsAnUnselectedRow : Prop :=
  ∀ s : State, s.Inv → step s ≠ .refused .notSelected

/-! ### The machine as a whole -/

/-- Derived (spec/30_encoding.md section 4, R83, and spec/20_memory.md section 3, R64): a step takes the
host's next request and, when it decodes to an operation, is that operation performed on the state without
the request. With no request waiting nothing happens (the model's choice, notes/assumptions/2.md). -/
def Obligations.StepPerformsTheDecodedRequest : Prop :=
  (∀ (s : State) (r : Request) (rest : List Request) (i : Instr), s.requests = r :: rest →
    decodeRequest s.ready (Cfg.variant s.cfg) r = .ok i →
    step s = exec i { s with requests := rest }) ∧
  (∀ s : State, s.requests = [] → step s = .next s)

/-- Derived (the model's own placing of a table word, notes/assumptions/4.md; spec/30_encoding.md section
4): with an operation's dispatch word placed, the decoder gives the operation and the very next step runs
it, with the host's other requests still to come, to a next state if it is well-formed; in an instance of
the right strategy already nothing else changes. -/
def Obligations.FetchWordRunsExactlyThatOperation : Prop :=
  ∀ (s : State) (i : Instr),
    decodeTableWord 40 (encode i).toNat = some i ∧
    step (s.withFetchWord 40 (encode i).toNat) =
      exec i { s.withFetchWord 40 (encode i).toNat with requests := s.requests } ∧
    (i.wf = true → ∃ t, step (s.withFetchWord 40 (encode i).toNat) = .next t) ∧
    (s.ready = true → Cfg.variant s.cfg = rowVariant i →
      Strategy.hasCode (rowVariant i) s.strategy = true →
      s.withFetchWord 40 (encode i).toNat = { s with requests := encodeRequest i :: s.requests })

/-- Derived (spec/10_state.md section 9, R48, and section 1, R20): every step from a state that meets the
invariant leads to one that meets it: the strategy state is the one CFG.VARIANT selects, widths are legal,
histories and indices stay inside their registers and tables, and tables stay canonical. -/
def Obligations.EveryStepKeepsTheInvariant : Prop :=
  ∀ s t : State, s.Inv → step s = .next t → t.Inv

/-- Derived (spec/70_reset_and_hazards.md section 1, R215): the power-on state meets the invariant and is
not ready. -/
def Obligations.PowerOnMeetsTheInvariant : Prop :=
  State.reset.Inv ∧ State.reset.ready = false

/-- Derived (spec/70_reset_and_hazards.md section 1, R215, decision D7): while the block is not ready the
only request with a meaning is a legal INIT. -/
def Obligations.OnlyInitHasAMeaningBeforeReady : Prop :=
  ∀ (s : State) (r : Request) (rest : List Request), s.ready = false → s.requests = r :: rest →
    ((∃ t, step s = .next t) ↔
      ∃ v g l p, r = initWord v g l p ∧ (Instr.init v g l p).wf = true)

/-- R42: PREDICT writes no state and a repeated PREDICT changes nothing and responds the same; TRAIN gives
no response. -/
def Obligations.PredictIsAPureRead : Prop :=
  ∀ (s t : State) (a : Addr),
    (∀ i, i = .predictStatic a ∨ i = .predictGshare a ∨ i = .predictTournament a ∨
        i = .predictCustom a ∨ i = .predictUnknown a →
      exec i s = .next t →
      t.ready = s.ready ∧ t.cfg = s.cfg ∧ t.strategy = s.strategy ∧ t.requests = s.requests ∧
      (∃ b, t.response = some b) ∧ exec i t = .next t) ∧
    (∀ i o, i = .trainStatic a o ∨ i = .trainGshare a o ∨ i = .trainTournament a o ∨
        i = .trainCustom a o ∨ i = .trainUnknown a o →
      exec i s = .next t →
      t.ready = s.ready ∧ t.cfg = s.cfg ∧ t.requests = s.requests ∧ t.response = none)

/-- Derived (spec/10_state.md section 8, R43, R39): the block keeps nothing of a PREDICT: a TRAIN after it,
at any address, does what it would have done without it. -/
def Obligations.TrainDoesNotDependOnAnEarlierPredict : Prop :=
  ∀ (s t : State) (a b : Addr) (o : Direction),
    (exec (.predictStatic a) s = .next t → exec (.trainStatic b o) t = exec (.trainStatic b o) s) ∧
    (exec (.predictGshare a) s = .next t → exec (.trainGshare b o) t = exec (.trainGshare b o) s) ∧
    (exec (.predictTournament a) s = .next t →
      exec (.trainTournament b o) t = exec (.trainTournament b o) s) ∧
    (exec (.predictCustom a) s = .next t → exec (.trainCustom b o) t = exec (.trainCustom b o) s) ∧
    (exec (.predictUnknown a) s = .next t → exec (.trainUnknown b o) t = exec (.trainUnknown b o) s)

/-- Derived (spec/10_state.md sections 1 and 2, R20, R21, R26, and spec/00_scope.md R3): a step that is
not an INIT leaves READY, CFG and the kind of strategy as they are, and no step makes READY fall. -/
def Obligations.OnlyInitChangesReadyAndConfiguration : Prop :=
  ∀ s t : State, step s = .next t →
    (s.ready = true → t.ready = true) ∧
    (t.ready = s.ready ∧ t.cfg = s.cfg ∧
        (∀ v, Strategy.hasCode v t.strategy = Strategy.hasCode v s.strategy) ∨
      ∃ v g l p rest, s.requests = initWord v g l p :: rest ∧ t.ready = true ∧ t.cfg = Cfg.pack v g l p)

/-- Derived (spec/60_exceptions.md section 2, R204, and spec/70_reset_and_hazards.md sections 2 and 3,
R222, R231; decisions D7, D16, D20): from any state at all, a legal INIT followed by any PREDICT and TRAIN
requests in any order runs to its end with no refusal, and the instance meets the invariant with the
configuration of that INIT. -/
def Obligations.EveryRunAfterInitCompletes : Prop :=
  ∀ (s : State) (v : VariantCode) (g l p : WidthField) (rs : List Request),
    (Instr.init v g l p).wf = true → (∀ r ∈ rs, BranchRequest r) →
    s.requests = initWord v g l p :: rs →
    ∃ t : State, Host.Core.run core (rs.length + 1) s = .next t ∧ t.requests = [] ∧
      t.ready = true ∧ t.cfg = Cfg.pack v g l p ∧ t.Inv
end

