-- ==== Sys2Proof/Machine/Text.lean ====
section
/-! DEFINITION. Text: the textual form of a request (spec/30_encoding.md R85, R86), read from a list of
characters. One request per line; `;` starts a comment; a BRANCH line is its two requests. -/

namespace Sys2Proof.Machine

/-- What a line of text holds: the requests it stands for, and the response it expects after `->`. -/
structure TextLine where
  requests : List Request
  expected : Option Direction
  deriving DecidableEq, Repr

/-- The line without its comment. -/
def Text.stripComment (cs : List Char) : List Char := cs.takeWhile (fun c => decide (c ≠ ';'))

/-- A collected word as a token, none if it is empty. -/
def Text.flush (word : List Char) : List (List Char) := if word = [] then [] else [word]

/-- The tokens of a line: words between blanks, and each comma. `word` is the word being collected. -/
def Text.tokens : List Char → List Char → List (List Char)
  | [], word => Text.flush word
  | c :: cs, word =>
    if c = ' ' ∨ c = '\t' then Text.flush word ++ Text.tokens cs []
    else if c = ',' then Text.flush word ++ [','] :: Text.tokens cs []
    else Text.tokens cs (word ++ [c])

/-- A digit's value in a base of at most 16. -/
def Text.digit (base : Nat) (c : Char) : Option Nat :=
  let n := c.toNat
  let v :=
    if 48 ≤ n ∧ n ≤ 57 then n - 48
    else if 65 ≤ n ∧ n ≤ 70 then n - 55
    else if 97 ≤ n ∧ n ≤ 102 then n - 87
    else 16
  if v < base then some v else none

/-- The number a digit list spells, most significant digit first, after the value read so far. -/
def Text.digits (base : Nat) : List Char → Nat → Option Nat
  | [], acc => some acc
  | c :: cs, acc => (Text.digit base c).bind fun d => Text.digits base cs (acc * base + d)

/-- A number: hexadecimal with `0x` or decimal, at least one digit (R85). -/
def Text.number : List Char → Option Nat
  | [] => none
  | '0' :: 'x' :: c :: cs => Text.digits 16 (c :: cs) 0
  | c :: cs => Text.digits 10 (c :: cs) 0

/-- An address: a number of at most 32 bits (R85). -/
def Text.addr (t : List Char) : Option Addr :=
  (Text.number t).bind fun n => if n < 2 ^ 32 then some (BitVec.ofNat 32 n) else none

/-- A width field: a number of at most 6 bits (R74, R85). -/
def Text.width (t : List Char) : Option WidthField :=
  (Text.number t).bind fun n => if n < 2 ^ 6 then some (BitVec.ofNat 6 n) else none

/-- An outcome: `T` (TAKEN, 1) or `N` (NOT_TAKEN, 0) (R85). -/
def Text.outcome (t : List Char) : Option Direction :=
  if t = ['T'] then some taken else if t = ['N'] then some notTaken else none

/-- A strategy's name (R85). -/
def Text.variant (t : List Char) : Option VariantCode :=
  if t = "STATIC".toList then some 0
  else if t = "GSHARE".toList then some 1
  else if t = "TOURNAMENT".toList then some 2
  else if t = "CUSTOM".toList then some 3
  else if t = "UNKNOWN4".toList then some 4
  else if t = "UNKNOWN5".toList then some 5
  else if t = "UNKNOWN6".toList then some 6
  else if t = "UNKNOWN7".toList then some 7
  else none

/-- `INIT <variant>, <G>, <L>, <P>` (R85). -/
def Text.parseInit : List (List Char) → Option TextLine
  | [v, [','], g, [','], l, [','], p] =>
    (Text.variant v).bind fun v => (Text.width g).bind fun g => (Text.width l).bind fun l =>
      (Text.width p).bind fun p => some ⟨[initWord v g l p], none⟩
  | _ => none

/-- `PREDICT <addr>`, or with its response `PREDICT <addr> -> <outcome>` (R85). -/
def Text.parsePredict : List (List Char) → Option TextLine
  | [a] => (Text.addr a).bind fun a => some ⟨[predictWord a], none⟩
  | [a, ['-', '>'], o] =>
    (Text.addr a).bind fun a => (Text.outcome o).bind fun o => some ⟨[predictWord a], some o⟩
  | _ => none

/-- `TRAIN <addr>, <outcome>` (R85). -/
def Text.parseTrain : List (List Char) → Option TextLine
  | [a, [','], o] =>
    (Text.addr a).bind fun a => (Text.outcome o).bind fun o => some ⟨[trainWord a o], none⟩
  | _ => none

/-- `BRANCH <addr>, <outcome>`: PREDICT then TRAIN (R86). -/
def Text.parseBranch : List (List Char) → Option TextLine
  | [a, [','], o] =>
    (Text.addr a).bind fun a => (Text.outcome o).bind fun o => some ⟨branchRequests a o, none⟩
  | _ => none

/-- A line of text; an empty line or a comment stands for no request (R85). -/
def Text.parseLine (cs : List Char) : Option TextLine :=
  match Text.tokens (Text.stripComment cs) [] with
  | [] => some ⟨[], none⟩
  | kw :: rest =>
    if kw = "INIT".toList then Text.parseInit rest
    else if kw = "PREDICT".toList then Text.parsePredict rest
    else if kw = "TRAIN".toList then Text.parseTrain rest
    else if kw = "BRANCH".toList then Text.parseBranch rest
    else none

end Sys2Proof.Machine
end

