-- ==== Sys2Proof/Tests/Slice0.lean ====
section
/-! SUPPORT. Tests: small checks whose expected results are the spec's own vectors
(spec/95_test_vectors.md), and for every obligation with hypotheses a state and operands that meet
them. -/

namespace Sys2Proof.Tests

open Sys2Proof.Machine

/-! ### Helpers -/

/-- The next state of an outcome, if that is what it is. -/
def next? : Result → Option State
  | .next s => some s
  | .fault _ => none
  | .refused _ => none

/-- The reason of a refusal, if an outcome is one. -/
def refusal? : Result → Option Refusal
  | .next _ => none
  | .fault _ => none
  | .refused r => some r

def onText (s : String) : Option TextLine := Text.parseLine s.toList

/-- A ready block with no request waiting. -/
def block (c : CfgWord) (st : Strategy) : State := ⟨true, c, st, [], none⟩

/-- A ready block with requests waiting. -/
def blockWith (c : CfgWord) (st : Strategy) (rs : List Request) : State := ⟨true, c, st, rs, none⟩

def staticBlock : State := block (Cfg.pack 0 0 0 0) .static
def unknownBlock (v : VariantCode) : State := block (Cfg.pack v 0 0 0) .unknown

/-- Section 2.5, Gshare: G, GS.GHR and the counter at one index. -/
def gs (g : WidthField) (ghr : History) (i : Nat) (c : Counter) : State :=
  block (Cfg.pack 1 g 0 0) (.gshare ⟨ghr, [(i, c)]⟩)

/-- Section 2.5, Tournament: the common start, and the entries the address 5 reaches. -/
def tnCore (lpt gpt sel : Counter) : Tournament :=
  ⟨0b10, [(1, 0b110)], Table.write 1 [] 6 lpt, Table.write 1 [] 2 gpt, Table.write 1 [] 2 sel⟩
def tn (lpt gpt sel : Counter) : State := block (Cfg.pack 2 2 3 2) (.tournament (tnCore lpt gpt sel))

/-- The state the common Tournament start is in after `TRAIN 0x5, o`. -/
def tnAfter (o : Direction) (lpt gpt sel : Counter) : State :=
  block (Cfg.pack 2 2 3 2) (.tournament ⟨(BitVec.ofBool o).setWidth 32, [(1, if o then 0b101 else 0b100)],
    Table.write 1 [] 6 lpt, Table.write 1 [] 2 gpt, Table.write 1 [] 2 sel⟩)

/-- A row with its first weights given and the rest equal. -/
def row (ws : List Weight) (rest : Weight) : Row := Vector.ofFn fun i => ws.getD i.val rest
def pcCore (ghr : PercHistory) (w : Row) : Custom := ⟨ghr, [(0, w)]⟩
def pc (ghr : PercHistory) (w : Row) : State := block (Cfg.pack 3 0 0 0) (.custom (pcCore ghr w))

/-! ### WellFormed: each check refuses an ill-formed term, and only where the strategy reads the width -/

theorem test_wf_gshare_g_zero : (Instr.init 1 0 0 0).wf = false := by decide
theorem test_wf_gshare_g_33 : (Instr.init 1 33 0 0).wf = false := by decide
theorem test_wf_gshare_g_bounds : (Instr.init 1 1 0 0).wf && (Instr.init 1 32 63 63).wf := by decide
theorem test_wf_tournament_g : (Instr.init 2 0 2 2).wf = false ∧ (Instr.init 2 33 2 2).wf = false := by decide
theorem test_wf_tournament_l : (Instr.init 2 2 0 2).wf = false ∧ (Instr.init 2 2 33 2).wf = false := by decide
theorem test_wf_tournament_p : (Instr.init 2 2 2 0).wf = false ∧ (Instr.init 2 2 2 33).wf = false := by decide
theorem test_wf_tournament_bounds : (Instr.init 2 1 1 1).wf && (Instr.init 2 32 32 32).wf := by decide
theorem test_wf_ignored_widths :
    (Instr.init 0 63 63 63).wf && (Instr.init 3 63 0 63).wf && (Instr.init 4 0 0 0).wf &&
      (Instr.init 7 0 63 0).wf := by decide
theorem test_wf_branch :
    (Instr.predictGshare 0xFFFFFFFF#32).wf && (Instr.trainCustom 0#32 notTaken).wf := by decide

/-! ### Decoding: words of spec/95_test_vectors.md section 2.2 -/

theorem test_decode_init :
    decode 0x0800042000#39 = .ok (.init 1 2 0 0) ∧ decode 0x080008928A#39 = .ok (.init 2 9 10 10) ∧
    decode 0x7800060000#39 = .ok (.init 1 32 0 0) ∧ decode 0x08000FF03F#39 = .ok (.init 3 63 0 63) := by
  decide
theorem test_decode_predict_static : decode 0x0000000010#39 = .ok (.predictStatic 0x10#32) := by decide
theorem test_decode_predict_gshare : decode 0x1000000010#39 = .ok (.predictGshare 0x10#32) := by decide
theorem test_decode_predict_tournament : decode 0x20DEADBEEF#39 = .ok (.predictTournament 0xDEADBEEF#32) := by
  decide
theorem test_decode_predict_custom : decode 0x30FFFFFFFF#39 = .ok (.predictCustom 0xFFFFFFFF#32) := by decide
theorem test_decode_predict_unknown :
    decode 0x4000000010#39 = .ok (.predictUnknown 0x10#32) ∧
    decode 0x7000000010#39 = .ok (.predictUnknown 0x10#32) := by decide
theorem test_decode_train_static : decode 0x0400000010#39 = .ok (.trainStatic 0x10#32 notTaken) := by decide
theorem test_decode_train_gshare : decode 0x1500000010#39 = .ok (.trainGshare 0x10#32 taken) := by decide
theorem test_decode_train_tournament : decode 0x2400000010#39 = .ok (.trainTournament 0x10#32 notTaken) := by
  decide
theorem test_decode_train_custom : decode 0x35FFFFFFFF#39 = .ok (.trainCustom 0xFFFFFFFF#32 taken) := by decide
theorem test_decode_train_unknown :
    decode 0x4500000010#39 = .ok (.trainUnknown 0x10#32 taken) ∧
    decode 0x7500000010#39 = .ok (.trainUnknown 0x10#32 taken) := by decide
theorem test_encode_words :
    encode (.init 2 9 10 10) = 0x080008928A#39 ∧ encode (.trainCustom 0x10 taken) = 0x3500000010#39 ∧
    encode (.predictTournament 0xDEADBEEF) = 0x20DEADBEEF#39 := by decide
/-- Section 2.3: the malformed requests. -/
theorem test_decode_refusals :
    decode 0x0C00000000#39 = .error .reservedOp ∧ decode 0x0FFFFFFFFF#39 = .error .reservedOp ∧
    decode 0x1100000010#39 = .error .reservedBits ∧ decode 0x1200000010#39 = .error .reservedBits ∧
    decode 0x1600000010#39 = .error .reservedBits ∧ decode 0x0800242000#39 = .error .reservedBits ∧
    decode 0x0A00000000#39 = .error .reservedBits := by decide
theorem test_decodeRequest_notReady :
    decodeRequest false 0 0x000000000#36 = .error .notReady ∧
    decodeRequest false 0 0x500000000#36 = .error .notReady ∧
    decodeRequest false 0 0x800042000#36 = .ok (.init 1 2 0 0) := by decide
theorem test_decodeTableWord :
    decodeTableWord 40 0x3500000010 = some (.trainCustom 0x10 taken) ∧
    decodeTableWord 40 0x8000000000 = none ∧ decodeTableWord 40 0x0C00000000 = none := by decide

/-! ### The text form (R85, R86) -/

theorem test_text_init : onText "INIT TOURNAMENT, 9, 10, 10 ; a comment" = some ⟨[0x80008928A], none⟩ := by
  decide
theorem test_text_predict :
    onText "PREDICT 0x10 -> N" = some ⟨[0x000000010], some notTaken⟩ ∧
    onText "PREDICT 4294967296" = none := by decide
theorem test_text_train : onText "TRAIN 0xFFFFFFFF, T" = some ⟨[0x5FFFFFFFF], none⟩ := by decide
theorem test_text_branch : onText "BRANCH 0x111, N" = some ⟨[0x000000111, 0x400000111], none⟩ := by decide

/-! ### Primitives (sections S1 and 2.1) -/

theorem test_sat2Update :
    [0, 1, 2, 3].map (sat2Update · notTaken) = [0, 0, 1, 2] ∧
    [0, 1, 2, 3].map (sat2Update · taken) = [1, 2, 3, 3] := by decide
theorem test_readout : [0, 1, 2, 3].map readout = [notTaken, notTaken, taken, taken] := by decide
theorem test_hshift :
    hshift 0b101#32 taken 3 = 0b011 ∧ hshift 1#32 notTaken 1 = 0 ∧
    hshift 0x40000000#31 taken 31 = 1 ∧ hshift 0xFFFFFFFF#32 taken 32 = 0xFFFFFFFF := by decide
theorem test_sat8Step :
    sat8Step 127 true = 127 ∧ sat8Step (-128) false = -128 ∧ sat8Step (-1) true = 0 ∧
    sat8Step (-127) false = -128 := by decide
/-- R47. -/
theorem test_storage : (pc 0 (row [] 0)).strategy.storageBits (Cfg.pack 3 0 0 0) = 63519 := by decide

/-! ### Static and unknown (section 2.4) -/

theorem test_predict_static :
    next? (exec (.predictStatic 0xFFFFFFFF) staticBlock) = some { staticBlock with response := some taken } := by
  decide
theorem test_train_static : next? (exec (.trainStatic 0x40 notTaken) staticBlock) = some staticBlock := by
  decide
theorem test_predict_unknown :
    next? (exec (.predictUnknown 0x8) (unknownBlock 5)) =
      some { unknownBlock 5 with response := some notTaken } := by decide
theorem test_train_unknown : next? (exec (.trainUnknown 0x8 taken) (unknownBlock 5)) = some (unknownBlock 5) := by
  decide
theorem test_notReady_at_reset : refusal? (exec (.predictStatic 0) State.reset) = some .notReady := by decide

/-! ### Gshare (section 2.5) -/

theorem test_predict_gshare_masks :
    (next? (exec (.predictGshare 0xFFFFFFFE) (gs 3 0b101 3 3))).map (·.response) = some (some taken) := by
  decide
theorem test_predict_gshare_width_32 :
    (next? (exec (.predictGshare 0x80000000) (gs 32 0x80000001 1 2))).map (·.response) = some (some taken) := by
  decide
theorem test_train_gshare_old_index :
    next? (exec (.trainGshare 0xFFFFFFFE notTaken) (gs 3 0b101 3 3)) = some (gs 3 0b010 3 2) := by decide
theorem test_train_gshare_width_32 :
    next? (exec (.trainGshare 0x80000000 taken) (gs 32 0x80000001 1 2)) = some (gs 32 3 1 3) := by decide

/-! ### Tournament (section 2.5) -/

/-- T1: selector 3, the global side. -/
theorem test_predict_tournament_global :
    (next? (exec (.predictTournament 5) (tn 3 0 3))).map (·.response) = some (some notTaken) := by decide
/-- T8: selector 1, the local side. -/
theorem test_predict_tournament_local :
    (next? (exec (.predictTournament 5) (tn 3 0 1))).map (·.response) = some (some taken) := by decide
/-- T7: local right only, outcome N. -/
theorem test_train_tournament_T7 :
    next? (exec (.trainTournament 5 notTaken) (tn 1 2 2)) = some (tnAfter notTaken 0 1 1) := by decide
/-- T4: global right only. -/
theorem test_train_tournament_T4 :
    next? (exec (.trainTournament 5 taken) (tn 0 3 1)) = some (tnAfter taken 1 3 2) := by decide

/-! ### Custom (section 2.6) -/

/-- G7's row: `y = 127 + 128 = 255`, and the same row with both bits the other way round. -/
theorem test_predict_custom_sum :
    percY Config.params (pcCore 0b01 (row [0, 127, -128] 0)) 0 = 255 ∧
    percY Config.params (pcCore 0b10 (row [-60, 127, -128] 0)) 0 = -315 := by decide
/-- Bit 30 is not read. -/
theorem test_predict_custom_bit_30 :
    percSum ((row [5, 1] 0).set 30 7) 0x60000000 = 11 ∧ percSum ((row [5, 1] 0).set 30 7) 0x20000000 = 11 := by
  decide
/-- G2: right at 72, no update, and still the shift. -/
theorem test_train_custom_G2 :
    next? (exec (.trainCustom 0 taken) (pc 0 (row [72] 0))) = some (pc 1 (row [72] 0)) := by decide
/-- G12: `w[2]` clamps at -128. -/
theorem test_train_custom_G12 :
    next? (exec (.trainCustom 0 notTaken) (pc 0b10 (row [100, 0, -128] 0))) =
      some (pc 0b100 (row [99, 1, -128] 1)) := by decide

/-! ### INIT and the step -/

theorem test_init_gshare :
    next? (exec (.init 1 2 0 0) State.reset) =
      some (block 0b001000010000000000000 (.gshare ⟨0, []⟩)) := by decide
theorem test_init_width_refused :
    refusal? (exec (.init 2 2 0 2) State.reset) = some .widthOutOfRange := by decide
/-- P6: a second INIT makes a new instance of another strategy. -/
theorem test_step_reinit :
    next? (step (blockWith (Cfg.pack 0 0 0 0) .static [0x800140000])) = some (unknownBlock 5) := by decide
theorem test_withFetchWord :
    next? (step (State.reset.withFetchWord 40 0x1000000010)) =
      some { block (Cfg.pack 1 1 1 1) (.gshare ⟨0, []⟩) with response := some notTaken } := by decide

/-! ### Witnesses: the hypotheses of each obligation can be met -/

theorem test_witness_CounterSaturates : 3 ≤ 3 := by decide
theorem test_witness_HistoryShift :
    (1 ≤ 1 ∧ 1 ≤ 32) ∧ (1 ≤ 32 ∧ 32 ≤ 32 ∧ 30 + 1 < 32 ∧ 32 ≤ 32) ∧ (1 ≤ 31 ∧ 31 ≤ 31) := by decide
theorem test_witness_GshareIndex : (1#32).toNat < 2 ^ 1 ∧ (0xFFFFFFFF#32).toNat < 2 ^ 32 := by decide
theorem test_witness_Aliased :
    (0x10#32).toNat % 2 ^ Cfg.g (gs 4 0 0 1).cfg = (0xFFFFFF10#32).toNat % 2 ^ Cfg.g (gs 4 0 0 1).cfg ∧
    (0x5#32).toNat % 2 ^ Cfg.p (tn 1 1 1).cfg = (0x1#32).toNat % 2 ^ Cfg.p (tn 1 1 1).cfg ∧
    (0x10#32).toNat % 256 = (0xFFFFFF10#32).toNat % 256 := by decide
theorem test_witness_CanonicalTables :
    Table.wf 1#2 4 [(0, 2#2), (3, 0#2)] ∧
    ∀ i, Table.read 1#2 [(0, 2#2), (3, 0#2)] i = Table.read 1#2 [(0, 2#2), (3, 0#2)] i :=
  ⟨by decide, fun _ => rfl⟩
theorem test_witness_Static :
    staticBlock.ready = true ∧ staticBlock.strategy = .static ∧ State.reset.ready = false := by decide
theorem test_witness_ConstantStatic :
    let s := blockWith (Cfg.pack 0 0 0 0) .static ([trainWord 0 notTaken] ++ [predictWord 8])
    s.ready = true ∧ (∀ r ∈ [trainWord 0 notTaken], BranchRequest r) ∧
    s.requests = [trainWord 0 notTaken] ++ [predictWord 8] ∧ Cfg.variant s.cfg = 0 ∧ s.strategy = .static :=
  ⟨rfl, by simpa using BranchRequest.train 0 notTaken, rfl, by decide, rfl⟩
theorem test_witness_ConstantUnknown :
    let s := blockWith (Cfg.pack 4 0 0 0) .unknown ([] ++ [predictWord 8])
    s.ready = true ∧ (∀ r ∈ ([] : List Request), BranchRequest r) ∧ s.requests = [] ++ [predictWord 8] ∧
    4 ≤ (Cfg.variant s.cfg).toNat ∧ s.strategy = .unknown :=
  ⟨rfl, by simp, rfl, by decide, rfl⟩
theorem test_witness_Gshare :
    (gs 3 0b101 3 3).ready = true ∧ (gs 3 0b101 3 3).strategy = .gshare ⟨0b101, [(3, 3)]⟩ ∧
    3 = ((0b101#32).toNat ^^^ (0xFFFFFFFE#32).toNat) % 2 ^ Cfg.g (gs 3 0b101 3 3).cfg := by decide
theorem test_witness_GshareHistory :
    (Cfg.g (Cfg.pack 1 32 0 0) ≤ 32 ∧ 31 < Cfg.g (Cfg.pack 1 32 0 0)) ∧
    (Cfg.g (Cfg.pack 1 1 0 0) ≤ 32 ∧ 0 < Cfg.g (Cfg.pack 1 1 0 0)) ∧ (Gshare.mk 0 []).ghr = 0 := by decide
theorem test_witness_GshareTurnsTaken :
    let s (g : WidthField) (n : Nat) : State :=
      { State.reset with requests := contractTrace 1 g 0 0 (List.replicate n (0x10, taken)) ++ [predictWord 0x10] }
    (1 ≤ (1#6).toNat ∧ (1#6).toNat ≤ 32 ∧
      (s 1 0).requests = contractTrace 1 1 0 0 (List.replicate 0 (0x10, taken)) ++ [predictWord 0x10]) ∧
    (1 ≤ (32#6).toNat ∧ (32#6).toNat ≤ 32 ∧
      (s 32 33).requests = contractTrace 1 32 0 0 (List.replicate 33 (0x10, taken)) ++ [predictWord 0x10]) :=
  ⟨⟨by decide, by decide, rfl⟩, by decide, by decide, rfl⟩
theorem test_witness_Tournament :
    (tn 3 0 3).ready = true ∧ (tn 3 0 3).strategy = .tournament (tnCore 3 0 3) ∧
    0b110#32 = Table.read 0#32 (tnCore 3 0 3).lht ((0x5#32).toNat % 2 ^ Cfg.p (tn 3 0 3).cfg) ∧
    taken = readout (Table.read 1#2 (tnCore 3 0 3).lpt (0b110#32).toNat) ∧
    notTaken = readout (Table.read 1#2 (tnCore 3 0 3).gpt (tnCore 3 0 3).ghr.toNat) ∧
    3#2 = Table.read 1#2 (tnCore 3 0 3).sel (tnCore 3 0 3).ghr.toNat := by decide
/-- T1, T4, T5, T6: local right only, global right only, both right, both wrong. -/
theorem test_witness_TrainTournament :
    (readout 3 = taken ∧ readout 0 ≠ taken) ∧ (readout 0 ≠ taken ∧ readout 3 = taken) ∧
    (readout 2 = taken ↔ readout 2 = taken) ∧ (readout 2 = notTaken ↔ readout 3 = notTaken) := by decide
theorem test_witness_SelectorFollows :
    (tnLocalPred Config.params (tn 2 2 1).cfg (tnCore 2 2 1) 5 = tnGlobalPred Config.params (tnCore 2 2 1)) ∧
    (tnLocalPred Config.params (tn 3 0 3).cfg (tnCore 3 0 3) 5 ≠ tnGlobalPred Config.params (tnCore 3 0 3)) := by
  decide
theorem test_witness_LocalHistory :
    (Cfg.l (Cfg.pack 2 2 32 2) ≤ 32 ∧ 31 < Cfg.l (Cfg.pack 2 2 32 2)) ∧
    (Cfg.l (Cfg.pack 2 2 1 2) ≤ 32 ∧ 0 < Cfg.l (Cfg.pack 2 2 1 2)) ∧
    ∀ i, Table.read 0#32 (Tournament.mk 0 [] [] [] []).lht i = 0 :=
  ⟨by decide, by decide, fun _ => rfl⟩
theorem test_witness_Custom :
    let w := row [72] 0
    (pc 0 w).ready = true ∧ (pc 0 w).strategy = .custom (pcCore 0 w) ∧
    w = Table.read (Vector.replicate 31 0#8) (pcCore 0 w).pt ((0#32).toNat % 256) ∧
    (72 : Int) = (w[0]).toInt +
      ∑ k : Fin 30, (if (pcCore 0 w).ghr.getLsbD k.val then (w[k.val + 1]).toInt else -(w[k.val + 1]).toInt) := by
  decide
/-- G1 and G13 open the gate (at 71, and wrong); G2 does not. -/
theorem test_witness_CustomGate :
    ((71 : Int).natAbs ≤ Config.params.theta ∨ decide ((0 : Int) ≤ 71) ≠ taken) ∧
    ((72 : Int).natAbs ≤ Config.params.theta ∨ decide ((0 : Int) ≤ 72) ≠ notTaken) ∧
    ¬((72 : Int).natAbs ≤ Config.params.theta ∨ decide ((0 : Int) ≤ 72) ≠ taken) := by decide
theorem test_witness_HistoryBitThirty :
    (pcCore 0x60000000 (row [5] 0)).pt = (pcCore 0x20000000 (row [5] 0)).pt ∧
    (pcCore 0x60000000 (row [5] 0)).ghr ≠ (pcCore 0x20000000 (row [5] 0)).ghr ∧
    ∀ k, k < 30 → (0x60000000#31).getLsbD k = (0x20000000#31).getLsbD k := by decide
theorem test_witness_Unclamped :
    ∀ i : Fin 31, -128 < ((row [-127] 126)[i.val]).toInt ∧ ((row [-127] 126)[i.val]).toInt < 127 := by decide
theorem test_witness_ConfidentTakenRow :
    (∀ k, k < 30 → (pcCore 0x3FFFFFFF (row [72] 0)).ghr.getLsbD k = true) ∧
    (Config.params.theta : Int) < percY Config.params (pcCore 0x3FFFFFFF (row [72] 0)) 0 := by decide
theorem test_witness_Unknown :
    (4 ≤ (4#3).toNat ∧ (unknownBlock 4).ready = true ∧ (unknownBlock 4).strategy = .unknown) ∧
    (4 ≤ (7#3).toNat ∧ (unknownBlock 7).ready = true ∧ (unknownBlock 7).strategy = .unknown) := by decide
theorem test_witness_InitGives :
    (Instr.init 0 63 63 63).wf && (Instr.init 1 1 0 0).wf && (Instr.init 1 32 0 0).wf &&
      (Instr.init 2 1 32 1).wf && (Instr.init 3 0 0 0).wf && (Instr.init 4 0 0 0).wf &&
      (Instr.init 7 0 0 0).wf := by decide
theorem test_witness_InitForgets : State.reset.requests = staticBlock.requests := by decide
theorem test_witness_FirstPrediction :
    (Instr.init 1 32 0 0).wf = true ∧
    ({ State.reset with requests := [initWord 1 32 0 0, predictWord 5] } : State).requests =
      [initWord 1 32 0 0, predictWord 5] := by decide
theorem test_witness_OpcodeMap : ⟨"INIT", 0x0800000000, 0x0FFFE00000⟩ ∈ opcodeMap := by decide
/-- Section 2.3: one request for each clause. -/
theorem test_witness_Malformed :
    Request.op 0xC00000000 = 3 ∧ (Request.op 0x800242000 = 2 ∧ Request.initReserved 0x800242000 ≠ 0) ∧
    (Request.op 0x000000000 = 0 ∧ Request.op 0x500000000 = 1 ∧ State.reset.ready = false) ∧
    (Request.op 0x100000010 = 0 ∧ Request.predictReserved 0x100000010 ≠ 0) ∧
    (Request.op 0x600000010 = 1 ∧ Request.trainReserved 0x600000010 = true ∧ staticBlock.ready = true) := by
  decide
/-- A ready state that meets the invariant and has a request waiting, for each strategy. -/
theorem test_witness_Invariant :
    staticBlock.Inv ∧ (gs 3 0b101 3 3).Inv ∧ (tn 3 0 3).Inv ∧ (pc 0 (row [72] 0)).Inv ∧
    (unknownBlock 7).Inv := by decide
theorem test_witness_EveryStep :
    let s := blockWith (Cfg.pack 1 32 0 0) (.gshare ⟨0xFFFFFFFF, [(0, 3)]⟩) [trainWord 5 taken]
    s.Inv ∧ s.ready = true ∧ BranchRequest (trainWord 5 taken) ∧ ∃ t, step s = .next t :=
  ⟨by decide, rfl, .train 5 taken, _, rfl⟩
theorem test_witness_StepPerforms :
    decodeRequest true 1 (predictWord 5) = .ok (.predictGshare 5) ∧ State.reset.requests = [] := by decide
theorem test_witness_FetchWord :
    (gs 3 0b101 3 3).ready = true ∧ Cfg.variant (gs 3 0b101 3 3).cfg = rowVariant (.predictGshare 5) ∧
    Strategy.hasCode (rowVariant (.predictGshare 5)) (gs 3 0b101 3 3).strategy = true := by decide
theorem test_witness_OnlyInit :
    let s : State := { State.reset with requests := [initWord 1 32 0 0] }
    s.ready = false ∧ s.requests = [initWord 1 32 0 0] ∧ (Instr.init 1 32 0 0).wf = true ∧
    ∃ t, step s = .next t :=
  ⟨rfl, rfl, by decide, _, rfl⟩
theorem test_witness_PureRead :
    (∃ t, exec (.predictStatic 5) staticBlock = .next t) ∧
    (∃ t, exec (.predictGshare 5) (gs 3 0 0 2) = .next t) ∧
    (∃ t, exec (.predictTournament 5) (tn 1 2 3) = .next t) ∧
    (∃ t, exec (.predictCustom 5) (pc 0 (row [1] 0)) = .next t) ∧
    (∃ t, exec (.predictUnknown 5) (unknownBlock 4) = .next t) :=
  ⟨⟨_, rfl⟩, ⟨_, rfl⟩, ⟨_, rfl⟩, ⟨_, rfl⟩, _, rfl⟩
theorem test_witness_Trains :
    (∃ t, exec (.trainStatic 5 taken) staticBlock = .next t) ∧
    (∃ t, exec (.trainGshare 5 taken) (gs 3 0 0 2) = .next t) ∧
    (∃ t, exec (.trainTournament 5 taken) (tn 1 2 3) = .next t) ∧
    (∃ t, exec (.trainCustom 5 taken) (pc 0 (row [1] 0)) = .next t) ∧
    (∃ t, exec (.trainUnknown 5 taken) (unknownBlock 4) = .next t) :=
  ⟨⟨_, rfl⟩, ⟨_, rfl⟩, ⟨_, rfl⟩, ⟨_, rfl⟩, _, rfl⟩
theorem test_witness_EveryRun :
    let s : State := { State.reset with requests := [initWord 2 1 32 1, predictWord 5, trainWord 9 taken] }
    (Instr.init 2 1 32 1).wf = true ∧ (∀ r ∈ [predictWord 5, trainWord 9 taken], BranchRequest r) ∧
    s.requests = initWord 2 1 32 1 :: [predictWord 5, trainWord 9 taken] :=
  ⟨by decide, by simpa using ⟨.predict 5, .train 9 taken⟩, rfl⟩

end Sys2Proof.Tests
end

/-! PROOFS. PureRead: no operation reads the response field, a PREDICT only responds and a TRAIN only
trains (spec/10_state.md section 8, R42). -/

namespace Sys2Proof.Machine

/-- The five rows a PREDICT at address `a` can be (R82). -/
def IsPredictAt (a : Addr) (i : Instr) : Prop :=
  i = .predictStatic a ∨ i = .predictGshare a ∨ i = .predictTournament a ∨
    i = .predictCustom a ∨ i = .predictUnknown a

/-- The five rows a TRAIN at address `a` with outcome `o` can be (R82). -/
def IsTrainAt (a : Addr) (o : Direction) (i : Instr) : Prop :=
  i = .trainStatic a o ∨ i = .trainGshare a o ∨ i = .trainTournament a o ∨
    i = .trainCustom a o ∨ i = .trainUnknown a o

/-- No operation, INIT included, reads the response of the one before it: it is the interface's output
side only (R79, R42). -/
theorem exec_respond (i : Instr) (s : State) (b : Direction) : exec i (s.respond b) = exec i s := by
  cases i <;> rfl

theorem exec_predict_next {a : Addr} {i : Instr} {s t : State} (hi : IsPredictAt a i)
    (h : exec i s = .next t) : ∃ b, t = s.respond b := by
  obtain rfl | rfl | rfl | rfl | rfl := hi
  · obtain ⟨-, -, hk⟩ := State.withStatic_next h
    cases hk; exact ⟨_, rfl⟩
  · obtain ⟨-, _, -, hk⟩ := State.withGshare_next h
    cases hk; exact ⟨_, rfl⟩
  · obtain ⟨-, _, -, hk⟩ := State.withTournament_next h
    cases hk; exact ⟨_, rfl⟩
  · obtain ⟨-, _, -, hk⟩ := State.withCustom_next h
    cases hk; exact ⟨_, rfl⟩
  · obtain ⟨-, -, hk⟩ := State.withUnknown_next h
    cases hk; exact ⟨_, rfl⟩

theorem exec_train_next {a : Addr} {o : Direction} {i : Instr} {s t : State} (hi : IsTrainAt a o i)
    (h : exec i s = .next t) : ∃ st, t = s.trained st := by
  obtain rfl | rfl | rfl | rfl | rfl := hi
  · obtain ⟨-, -, hk⟩ := State.withStatic_next h
    cases hk; exact ⟨_, rfl⟩
  · obtain ⟨-, _, -, hk⟩ := State.withGshare_next h
    cases hk; exact ⟨_, rfl⟩
  · obtain ⟨-, _, -, hk⟩ := State.withTournament_next h
    cases hk; exact ⟨_, rfl⟩
  · obtain ⟨-, _, -, hk⟩ := State.withCustom_next h
    cases hk; exact ⟨_, rfl⟩
  · obtain ⟨-, -, hk⟩ := State.withUnknown_next h
    cases hk; exact ⟨_, rfl⟩

/-- Settles O48: a PREDICT writes the response alone, which the repeated PREDICT does not read
(`exec_respond`); a TRAIN writes the strategy state and clears the response. -/
theorem predictIsAPureRead : Obligations.PredictIsAPureRead := by
  intro s t a
  constructor
  · intro i hi h
    obtain ⟨b, rfl⟩ := exec_predict_next hi h
    have hagain : exec i (s.respond b) = .next (s.respond b) := (exec_respond i s b).trans h
    exact ⟨rfl, rfl, rfl, rfl, ⟨b, rfl⟩, hagain⟩
  · intro i o hi h
    obtain ⟨st, rfl⟩ := exec_train_next hi h
    exact ⟨rfl, rfl, rfl, rfl⟩

end Sys2Proof.Machine

/-! PROOFS. The Gshare index (spec/20_memory.md, R52). -/

namespace Sys2Proof.Machine

/-- The `&&& mask g` of the index keeps the remainder modulo `2 ^ g`. -/
theorem gsIndex_eq_mod (h : History) (a : Addr) (g : Nat) :
    gsIndex h a g = (h.toNat ^^^ a.toNat) % 2 ^ g := mask_and _ g

/-- R52's quoted equality: a register of `g` bits is XORed with the low `g` bits of the address. -/
theorem gsIndex_eq_xor_mod {h : History} {g : Nat} (hg : h.toNat < 2 ^ g) (a : Addr) :
    gsIndex h a g = h.toNat ^^^ (a.toNat % 2 ^ g) :=
  calc gsIndex h a g = (h.toNat ^^^ a.toNat) % 2 ^ g := gsIndex_eq_mod h a g
    _ = (h.toNat % 2 ^ g) ^^^ (a.toNat % 2 ^ g) := Nat.xor_mod_two_pow
    _ = h.toNat ^^^ (a.toNat % 2 ^ g) := by rw [Nat.mod_eq_of_lt hg]

/-- Settles O7: masking is the remainder, which passes through XOR and leaves a register below `2 ^ g`
as it is. -/
theorem gshareIndexIsMaskedXor : Obligations.GshareIndexIsMaskedXor := fun h a g =>
  ⟨gsIndex_eq_mod h a g, gsIndex_lt h a g, fun hg => gsIndex_eq_xor_mod hg a⟩

end Sys2Proof.Machine

/-! PROOFS. Counter, history and weight steps (spec/40_primitives.md, R101, R102, R104, R105). -/

namespace Sys2Proof.Machine

/-- R104's formula: a storage of at least `w` bits loses nothing the mask keeps. -/
theorem hshift_toNat_formula {n : Nat} (h : BitVec n) (o : Direction) {w : Nat} (hw : w ≤ n) :
    (hshift h o w).toNat = (h.toNat <<< 1 ||| o.toNat) &&& (2 ^ w - 1) := by
  rw [hshift_toNat h o hw, shift_or, Nat.and_two_pow_sub_one_eq_mod]

/-- A bit of the next history is a bit of the old one with the outcome put below it, if the width keeps it. -/
theorem hshift_getLsbD {n : Nat} (h : BitVec n) (o : Direction) {w : Nat} (hw : w ≤ n) (k : Nat) :
    (hshift h o w).getLsbD k = (decide (k < w) && (Nat.bit o h.toNat).testBit k) := by
  rw [← BitVec.testBit_toNat, hshift_toNat h o hw, Nat.testBit_mod_two_pow, Nat.bit_val]

/-- Settles O3: the bits of the next history are read off `Nat.bit`, the outcome below the old history. -/
theorem historyShiftInsertsAtBitZero : Obligations.HistoryShiftInsertsAtBitZero := by
  intro n h o w hpos hw
  refine ⟨hshift_toNat_formula h o hw, ?newest, fun k hk => ?older, fun k hk => ?above⟩
  case newest =>
    rw [hshift_getLsbD h o hw, Nat.testBit_bit_zero, decide_eq_true (show 0 < w from hpos), Bool.true_and]
  case older =>
    rw [hshift_getLsbD h o hw, Nat.testBit_bit_succ, decide_eq_true hk, Bool.true_and,
      BitVec.testBit_toNat]
  case above =>
    rw [hshift_getLsbD h o hw, decide_eq_false (Nat.not_lt.mpr hk), Bool.false_and]

/-- Settles O1: the two directions of `sat2Update_toNat`, and READOUT as it is defined. -/
theorem counterStepsOnceAndSaturates : Obligations.CounterStepsOnceAndSaturates := fun s =>
  ⟨sat2Update_toNat s taken, sat2Update_toNat s notTaken, rfl⟩

/-- Settles O4: the two directions of `sat8Step_toInt`. -/
theorem weightStepsOnceAndSaturates : Obligations.WeightStepsOnceAndSaturates := fun w =>
  ⟨sat8Step_toInt w true, sat8Step_toInt w false⟩

end Sys2Proof.Machine

/-! PROOFS. Static (spec/41_static.md, R115, R116): the dispatch words of its two operations and what
each answers in a ready Static instance. -/

namespace Sys2Proof

/-- The decoder on the dispatch word of a PREDICT: the row that the word's own code selects (R81, R82). -/
theorem decode_predict_dispatchWord (v : VariantCode) (a : Addr) :
    decode (dispatchWord v (predictWord a)) = .ok (dispatchPredict v a) := by
  rw [decode, dispatchWord_variant, dispatchWord_request, decodeRequest_predictWord]

/-- The decoder on the dispatch word of a TRAIN: the row that the word's own code selects (R81, R82). -/
theorem decode_train_dispatchWord (v : VariantCode) (a : Addr) (o : Direction) :
    decode (dispatchWord v (trainWord a o)) = .ok (dispatchTrain v a o) := by
  rw [decode, dispatchWord_variant, dispatchWord_request, decodeRequest_trainWord]

namespace Machine

theorem exec_predictStatic (a : Addr) (s : State) :
    exec (.predictStatic a) s = s.withStatic (.next (s.respond taken)) := rfl

theorem exec_trainStatic (a : Addr) (o : Direction) (s : State) :
    exec (.trainStatic a o) s = s.withStatic (.next (s.trained .static)) := rfl

/-- Training a Static instance clears the response and nothing else: the strategy written back is the
one it holds (R116). -/
theorem State.trained_static {s : State} (hs : s.strategy = .static) :
    s.trained .static = { s with response := none } := by
  rw [State.trained, ← hs]

/-- Settles O10: the word selects the row of code 0, and Static's one answer is the response. -/
theorem predictStaticRespondsTaken : Obligations.PredictStaticRespondsTaken := by
  intro a s
  rw [exec_predictStatic]
  refine ⟨decode_predict_dispatchWord 0 a, fun hr hs => ?_, State.withStatic_notReady⟩
  exact State.withStatic_eq hr hs

/-- Settles O11: the word selects the row of code 0, and the training writes back the Static state it
finds (`State.trained_static`). -/
theorem trainStaticChangesNothing : Obligations.TrainStaticChangesNothing := by
  intro a o s
  rw [exec_trainStatic]
  refine ⟨decode_train_dispatchWord 0 a o, fun hr hs => ?_, State.withStatic_notReady⟩
  rw [State.withStatic_eq hr hs, State.trained_static hs]

end Machine

end Sys2Proof

/-! PROOFS. Gshare (spec/42_gshare.md, R121, R122, R124): what its two operations answer in a ready Gshare
instance, and a run of branches that all go the same way at one address. -/

namespace Sys2Proof.Machine

/-! ### PREDICT.GSHARE and TRAIN.GSHARE -/

section Operations
variable (prm : Params) (c : CfgWord) (gs : Gshare) (a : Addr) (o : Direction)

theorem exec_predictGshare (s : State) : exec (.predictGshare a) s =
    s.withGshare fun gs => .next (s.respond (gsPredict Config.params s.cfg gs a)) := rfl

theorem exec_trainGshare (s : State) : exec (.trainGshare a o) s =
    s.withGshare fun gs => .next (s.trained (.gshare (gsTrain Config.params s.cfg gs a o))) := rfl

/-- The counter a PREDICT reads and a TRAIN moves, with R52's index written as a remainder. -/
theorem gsCounter_eq_read : gsCounter prm c gs a =
    Table.read prm.initCtr gs.pht ((gs.ghr.toNat ^^^ a.toNat) % 2 ^ Cfg.g c) := by
  rw [gsCounter, gsIndex_eq_mod]

@[simp] theorem gsTrain_ghr : (gsTrain prm c gs a o).ghr = hshift gs.ghr o (Cfg.g c) := rfl

/-- TRAIN moves the counter at the index formed from the GHR before the shift (R123). -/
theorem gsTrain_read_index :
    Table.read prm.initCtr (gsTrain prm c gs a o).pht (gsIndex gs.ghr a (Cfg.g c)) =
      sat2Update (gsCounter prm c gs a) o :=
  Table.read_write_same ..

/-- TRAIN leaves the counter at every other index alone. -/
theorem gsTrain_read_other {j : Nat} (hj : j ≠ gsIndex gs.ghr a (Cfg.g c)) :
    Table.read prm.initCtr (gsTrain prm c gs a o).pht j = Table.read prm.initCtr gs.pht j :=
  Table.read_write_other _ _ _ _ _ hj

end Operations

/-- Settles O13: the word selects the row of code 1, and the counter read is the one at R52's index. -/
theorem predictGshareReadsTheXorIndexedCounter : Obligations.PredictGshareReadsTheXorIndexedCounter := by
  intro a s gs
  rw [exec_predictGshare]
  refine ⟨decode_predict_dispatchWord 1 a, fun hr hs => ?_, State.withGshare_notReady⟩
  rw [State.withGshare_eq hr hs, gsPredict, gsCounter_eq_read]
  rfl

/-- Settles O14: the trained table by `gsTrain_read_index` and `gsTrain_read_other`, at R52's index. -/
theorem trainGshareUpdatesThatCounterThenShifts : Obligations.TrainGshareUpdatesThatCounterThenShifts := by
  intro a o s gs i hi
  rw [← gsIndex_eq_mod] at hi
  subst hi
  rw [exec_trainGshare]
  refine ⟨decode_train_dispatchWord 1 a o, fun hr hs => ?_, State.withGshare_notReady⟩
  refine ⟨gsTrain Config.params s.cfg gs a o, State.withGshare_eq hr hs, ?moved, fun j hj => ?framed, rfl⟩
  case moved => exact gsTrain_read_index Config.params s.cfg gs a o
  case framed => exact gsTrain_read_other Config.params s.cfg gs a o hj

/-! ### A run over a Gshare instance (R64, R86) -/

/-- A ready instance of Gshare with its configuration, its state, the requests still to come and the last
response. -/
def gshareState (c : CfgWord) (gs : Gshare) (rs : List Request) (resp : Option Direction) : State :=
  ⟨true, c, .gshare gs, rs, resp⟩

/-- The state after a list of trainings. -/
def gsTrainAll (prm : Params) (c : CfgWord) (gs : Gshare) (bs : List (Addr × Direction)) : Gshare :=
  bs.foldl (fun gs b => gsTrain prm c gs b.1 b.2) gs

section Run
variable {c : CfgWord} (hv : Cfg.variant c = 1) (gs : Gshare) (rs : List Request)
  (resp : Option Direction)
include hv

theorem step_gshare_predictWord (a : Addr) :
    step (gshareState c gs (predictWord a :: rs) resp) =
      .next (gshareState c gs rs (some (gsPredict Config.params c gs a))) := by
  have hd : decodeRequest true (Cfg.variant c) (predictWord a) = .ok (.predictGshare a) := by
    rw [hv, decodeRequest_predictWord]; rfl
  rw [step_of_decode (r := predictWord a) (rest := rs) rfl hd, exec_predictGshare]
  exact State.withGshare_eq rfl rfl

theorem step_gshare_trainWord (a : Addr) (o : Direction) :
    step (gshareState c gs (trainWord a o :: rs) resp) =
      .next (gshareState c (gsTrain Config.params c gs a o) rs none) := by
  have hd : decodeRequest true (Cfg.variant c) (trainWord a o) = .ok (.trainGshare a o) := by
    rw [hv, decodeRequest_trainWord]; rfl
  rw [step_of_decode (r := trainWord a o) (rest := rs) rfl hd, exec_trainGshare]
  exact State.withGshare_eq rfl rfl

/-- A list of branches, two requests each, ends with every one of them trained. -/
theorem run_gshare_branches (bs : List (Addr × Direction)) :
    Host.Core.run core (2 * bs.length)
        (gshareState c gs (bs.flatMap (fun b => branchRequests b.1 b.2) ++ rs) none) =
      .next (gshareState c (gsTrainAll Config.params c gs bs) rs none) := by
  induction bs generalizing gs with
  | nil => rfl
  | cons b bs ih =>
    obtain ⟨a, o⟩ := b
    exact (run_succ _ (step_gshare_predictWord hv gs _ none a)).trans <|
      (run_succ _ (step_gshare_trainWord hv gs _ _ a o)).trans (ih (gsTrain Config.params c gs a o))

end Run

/-- The state INIT gives Gshare: GHR 0, every counter WN (D22). -/
def gsStart : Gshare := ⟨0, []⟩

/-- An INIT of Gshare with a legal G makes a ready instance in the start state (R185). -/
theorem step_initWord_gshare {s : State} {g l p : WidthField} {rs : List Request} (hlo : 1 ≤ g.toNat)
    (hhi : g.toNat ≤ 32) (hs : s.requests = initWord 1 g l p :: rs) :
    step s = .next (gshareState (Cfg.pack 1 g l p) gsStart rs none) := by
  have hw : initWidthsOk Config.params 1 g l p = true := by simp [initWidthsOk, widthInRange, hlo, hhi]
  have hst : initStrategy Config.params 1 g = .gshare gsStart := by
    simp [initStrategy, initHistory, gsStart]
  rw [step_of_decode hs (decodeRequest_initWord ..)]
  simp only [exec, execInit, hw, if_true, State.initialised, hst, gshareState]

/-! ### One address trained TAKEN again and again (R124) -/

/-- The index of address `a` when the GHR of `g` bits has seen `j` times TAKEN and nothing else: its low
`min j g` bits are 1. -/
def onesIndex (a : Addr) (g j : Nat) : Nat := mask (min j g) ^^^ lowBits a g

theorem gsIndex_eq_onesIndex {h : History} {g j : Nat} (hh : h.toNat = mask (min j g)) (a : Addr) :
    gsIndex h a g = onesIndex a g j := by
  have hlt : h.toNat < 2 ^ g :=
    calc h.toNat = 2 ^ min j g - 1 := hh
      _ < 2 ^ min j g := Nat.sub_one_lt (Nat.two_pow_pos _).ne'
      _ ≤ 2 ^ g := Nat.pow_le_pow_right (by decide) (Nat.min_le_right j g)
  rw [gsIndex_eq_xor_mod hlt, hh, onesIndex, lowBits_eq]

theorem mask_injective : Function.Injective mask := by
  intro m n h
  have hm := Nat.two_pow_pos m
  have hn := Nat.two_pow_pos n
  have hpow : 2 ^ m = 2 ^ n := by unfold mask at h; omega
  exact Nat.pow_right_injective (le_refl 2) hpow

/-- The index changes with every training until the GHR is full, and never afterwards. -/
theorem onesIndex_inj {a : Addr} {g i j : Nat} :
    onesIndex a g i = onesIndex a g j ↔ min i g = min j g := by
  rw [onesIndex, onesIndex, Nat.xor_left_inj, mask_injective.eq_iff]

/-- Shifting a 1 into a register of `g` bits whose low bits are 1. -/
theorem shift_one_into_ones (n g : Nat) : (2 * mask (min n g) + 1) % 2 ^ g = mask (min (n + 1) g) := by
  have hpos := Nat.two_pow_pos (min n g)
  have hdouble : 2 * mask (min n g) + 1 = 2 ^ (min n g + 1) - 1 := by rw [mask, Nat.pow_succ]; omega
  rw [hdouble, mask]
  rcases Nat.lt_or_ge n g with hlt | hge
  · rw [Nat.min_eq_left hlt.le, Nat.min_eq_left hlt]
    have hle : 2 ^ (n + 1) ≤ 2 ^ g := Nat.pow_le_pow_right (by decide) hlt
    have hpos' := Nat.two_pow_pos (n + 1)
    exact Nat.mod_eq_of_lt (by omega)
  · have hpos' := Nat.two_pow_pos g
    have hsplit : 2 ^ (g + 1) - 1 = 2 ^ g - 1 + 2 ^ g := by rw [Nat.pow_succ]; omega
    rw [Nat.min_eq_right hge, Nat.min_eq_right (Nat.le_succ_of_le hge), hsplit, Nat.add_mod_right]
    exact Nat.mod_eq_of_lt (by omega)

/-- What `n` trainings of address `a` with TAKEN, from the start state, leave: the GHR has `min n G` ones,
and the counter at every index still to come has moved up once for each training after the `G`-th. -/
structure TrainedTaken (c : CfgWord) (a : Addr) (n : Nat) (gs : Gshare) : Prop where
  ghr : gs.ghr.toNat = mask (min n (Cfg.g c))
  counter : ∀ j, n ≤ j →
    (Table.read 1#2 gs.pht (onesIndex a (Cfg.g c) j)).toNat = min (1 + (n - Cfg.g c)) 3

theorem trainedTaken_zero (c : CfgWord) (a : Addr) : TrainedTaken c a 0 gsStart where
  ghr := by simp [gsStart, mask]
  counter j _ := by simp [gsStart]

section Trained
variable {c : CfgWord} {a : Addr} {n : Nat} {gs : Gshare} (h : TrainedTaken c a n gs)
include h

theorem TrainedTaken.index : gsIndex gs.ghr a (Cfg.g c) = onesIndex a (Cfg.g c) n :=
  gsIndex_eq_onesIndex h.ghr a

theorem TrainedTaken.gsCounter_toNat :
    (gsCounter Config.params c gs a).toNat = min (1 + (n - Cfg.g c)) 3 := by
  rw [gsCounter, h.index]
  exact h.counter n le_rfl

/-- Until the GHR is full the training moves a counter that is not read again; from then on it moves the
one counter that every later request reads. -/
theorem TrainedTaken.succ (hg : Cfg.g c ≤ 32) :
    TrainedTaken c a (n + 1) (gsTrain Config.params c gs a taken) where
  ghr := by
    rw [gsTrain_ghr, hshift_toNat _ _ hg, h.ghr]
    exact shift_one_into_ones n (Cfg.g c)
  counter j hj := by
    rcases Nat.lt_or_ge n (Cfg.g c) with hlt | hfull
    · have hne : onesIndex a (Cfg.g c) j ≠ gsIndex gs.ghr a (Cfg.g c) := by
        rw [h.index, Ne, onesIndex_inj]; omega
      have hread := gsTrain_read_other Config.params c gs a taken hne
      rw [Config.params_initCtr] at hread
      rw [hread, h.counter j (by omega)]
      omega
    · have hsame : onesIndex a (Cfg.g c) j = gsIndex gs.ghr a (Cfg.g c) := by
        rw [h.index, onesIndex_inj]; omega
      have hread := gsTrain_read_index Config.params c gs a taken
      rw [Config.params_initCtr] at hread
      rw [hsame, hread, sat2Update_toNat, h.gsCounter_toNat, if_pos rfl]
      omega

theorem TrainedTaken.gsPredict_eq : gsPredict Config.params c gs a = decide (Cfg.g c + 1 ≤ n) := by
  rw [gsPredict, readout, h.gsCounter_toNat, decide_eq_decide]
  omega

end Trained

theorem trainedTaken_gsTrainAll {c : CfgWord} (hg : Cfg.g c ≤ 32) (a : Addr) (n : Nat) :
    TrainedTaken c a n (gsTrainAll Config.params c gsStart (List.replicate n (a, taken))) := by
  induction n with
  | zero => exact trainedTaken_zero c a
  | succ n ih =>
    rw [List.replicate_succ', gsTrainAll, List.foldl_concat]
    exact ih.succ hg

/-- Settles O16: INIT, then the `n` branches, then the PREDICT, whose counter the invariant `TrainedTaken`
gives. -/
theorem gshareTurnsTakenAfterGPlusOneTrainings : Obligations.GshareTurnsTakenAfterGPlusOneTrainings := by
  intro s g l p a n hlo hhi hs
  have hvariant : Cfg.variant (Cfg.pack 1 g l p) = 1 := Cfg.variant_pack 1 g l p
  have hwidth : Cfg.g (Cfg.pack 1 g l p) ≤ 32 := by rw [Cfg.g_pack]; exact hhi
  have hinit := step_initWord_gshare hlo hhi hs
  have hbranches := run_gshare_branches hvariant gsStart [predictWord a] (List.replicate n (a, taken))
  rw [List.length_replicate] at hbranches
  have hpredict := step_gshare_predictWord hvariant
    (gsTrainAll Config.params (Cfg.pack 1 g l p) gsStart (List.replicate n (a, taken))) [] none a
  refine ⟨_, (run_succ _ hinit).trans ((run_add (2 * n) 1 hbranches).trans (run_succ 0 hpredict)), ?_⟩
  have hanswer := (trainedTaken_gsTrainAll hwidth a n).gsPredict_eq
  rw [Cfg.g_pack] at hanswer
  exact congrArg some hanswer

end Sys2Proof.Machine

/-! PROOFS. Tournament (spec/43_tournament.md, R133, R134): the selector's step by who was right, what a
TRAIN leaves at every index of the four tables, and the answers of the two operations. -/

namespace Sys2Proof.Machine

/-! ### The selector's step (R137) -/

section Selector
variable (s : Counter) {p1 p2 o : Direction}

theorem correct_of_eq (h : p1 = o) : correct p1 o = true := beq_iff_eq.mpr h

theorem correct_of_ne (h : p1 ≠ o) : correct p1 o = false := beq_eq_false_iff_ne.mpr h

/-- Only the local sub-prediction was right: one step down. -/
theorem selStep_toNat_localOnly (h1 : p1 = o) (h2 : p2 ≠ o) :
    (selStep s (correct p1 o) (correct p2 o)).toNat = s.toNat - 1 := by
  rw [correct_of_eq h1, correct_of_ne h2]
  exact sat2Update_toNat s notTaken

/-- Only the global sub-prediction was right: one step up. -/
theorem selStep_toNat_globalOnly (h1 : p1 ≠ o) (h2 : p2 = o) :
    (selStep s (correct p1 o) (correct p2 o)).toNat = min (s.toNat + 1) 3 := by
  rw [correct_of_ne h1, correct_of_eq h2]
  exact sat2Update_toNat s taken

/-- Both right or both wrong: no step. -/
theorem selStep_of_correct_iff (h : p1 = o ↔ p2 = o) :
    selStep s (correct p1 o) (correct p2 o) = s := by
  by_cases h2 : p2 = o
  · rw [correct_of_eq (h.mpr h2), correct_of_eq h2]; rfl
  · rw [correct_of_ne (mt h.mp h2), correct_of_ne h2]; rfl

end Selector

/-! ### What TRAIN.TOURNAMENT leaves in each table (R134) -/

section Train
variable (prm : Params) (c : CfgWord) (tn : Tournament) (a : Addr) (o : Direction) {j : Nat}

@[simp] theorem tnTrain_ghr : (tnTrain prm c tn a o).ghr = hshift tn.ghr o (Cfg.g c) := rfl

/-- The counter at the local history before the shift learns (R135, D12). -/
theorem tnTrain_read_lpt_index :
    Table.read prm.initCtr (tnTrain prm c tn a o).lpt (lptIndex prm c tn a) =
      sat2Update (tnLocalCounter prm c tn a) o :=
  Table.read_write_same ..

theorem tnTrain_read_lpt_other (hj : j ≠ lptIndex prm c tn a) :
    Table.read prm.initCtr (tnTrain prm c tn a o).lpt j = Table.read prm.initCtr tn.lpt j :=
  Table.read_write_other _ _ _ _ _ hj

theorem tnTrain_read_lht_index :
    Table.read (initHistory prm 32 (Cfg.l c)) (tnTrain prm c tn a o).lht (lhtIndex a (Cfg.p c)) =
      hshift (tnLocalHistory prm c tn a) o (Cfg.l c) :=
  Table.read_write_same ..

theorem tnTrain_read_lht_other (hj : j ≠ lhtIndex a (Cfg.p c)) :
    Table.read (initHistory prm 32 (Cfg.l c)) (tnTrain prm c tn a o).lht j =
      Table.read (initHistory prm 32 (Cfg.l c)) tn.lht j :=
  Table.read_write_other _ _ _ _ _ hj

theorem tnTrain_read_gpt_ghr :
    Table.read prm.initCtr (tnTrain prm c tn a o).gpt tn.ghr.toNat =
      sat2Update (tnGlobalCounter prm tn) o :=
  Table.read_write_same ..

theorem tnTrain_read_gpt_other (hj : j ≠ tn.ghr.toNat) :
    Table.read prm.initCtr (tnTrain prm c tn a o).gpt j = Table.read prm.initCtr tn.gpt j :=
  Table.read_write_other _ _ _ _ _ hj

/-- The selector entry at the GHR before the shift steps by who was right (R136, R137). -/
theorem tnTrain_read_sel_ghr :
    Table.read prm.initSel (tnTrain prm c tn a o).sel tn.ghr.toNat =
      selStep (tnSelector prm tn) (correct (tnLocalPred prm c tn a) o)
        (correct (tnGlobalPred prm tn) o) :=
  Table.read_write_same ..

theorem tnTrain_read_sel_other (hj : j ≠ tn.ghr.toNat) :
    Table.read prm.initSel (tnTrain prm c tn a o).sel j = Table.read prm.initSel tn.sel j :=
  Table.read_write_other _ _ _ _ _ hj

end Train

/-! ### PREDICT.TOURNAMENT and TRAIN.TOURNAMENT -/

theorem exec_predictTournament (a : Addr) (s : State) : exec (.predictTournament a) s =
    s.withTournament fun tn => .next (s.respond (tnPredict Config.params s.cfg tn a)) := rfl

theorem exec_trainTournament (a : Addr) (o : Direction) (s : State) : exec (.trainTournament a o) s =
    s.withTournament fun tn => .next (s.trained (.tournament (tnTrain Config.params s.cfg tn a o))) := rfl

/-- With the default parameters a history register of any width starts at 0 (D8, D9). -/
theorem initHistory_params (n w : Nat) : initHistory Config.params n w = 0#n := by
  simp [initHistory]

/-- The local history with R53's index written as a remainder. -/
theorem tnLocalHistory_params (c : CfgWord) (tn : Tournament) (a : Addr) :
    tnLocalHistory Config.params c tn a = Table.read 0#32 tn.lht (a.toNat % 2 ^ Cfg.p c) := by
  rw [tnLocalHistory, initHistory_params, lhtIndex, lowBits_eq]

/-- The multiplexer by the selector's value: below 2 it passes the local sub-prediction (R107, R133). -/
theorem tnPredict_eq_ite (prm : Params) (c : CfgWord) (tn : Tournament) (a : Addr) :
    tnPredict prm c tn a =
      if (tnSelector prm tn).toNat < 2 then tnLocalPred prm c tn a else tnGlobalPred prm tn := by
  rw [tnPredict, selChoice, readout]
  rcases Nat.lt_or_ge (tnSelector prm tn).toNat 2 with hlocal | hglobal
  · rw [if_pos hlocal, decide_eq_false hlocal.not_ge]; rfl
  · rw [if_neg hglobal.not_gt, decide_eq_true hglobal]; rfl

/-- Settles O17: the word selects the row of code 2, and the response is `tnPredict_eq_ite` at the local
history the statement reads. -/
theorem predictTournamentMultiplexes : Obligations.PredictTournamentMultiplexes := by
  intro a s tn lh p1 p2 sel hlh hp1 hp2 hsel
  rw [← tnLocalHistory_params] at hlh
  subst hlh hp1 hp2 hsel
  rw [exec_predictTournament]
  refine ⟨decode_predict_dispatchWord 2 a, fun hr hs => ?_, State.withTournament_notReady⟩
  rw [State.withTournament_eq hr hs, tnPredict_eq_ite]
  rfl

/-- Settles O18: each clause is the lemma of its table at the values the statement reads; the selector
entry's three cases are those of `selStep`. -/
theorem trainTournamentUpdatesAllFourTables : Obligations.TrainTournamentUpdatesAllFourTables := by
  intro a o s tn pi g lh lc gc sc hpi hg hlh hlc hgc hsc
  rw [hpi, ← tnLocalHistory_params] at hlh
  rw [← lowBits_eq] at hpi
  subst hpi hg hlh hlc hgc hsc
  rw [exec_trainTournament]
  refine ⟨decode_train_dispatchWord 2 a o, fun hr hs => ?_, State.withTournament_notReady⟩
  have hsel := tnTrain_read_sel_ghr Config.params s.cfg tn a o
  refine ⟨tnTrain Config.params s.cfg tn a o, State.withTournament_eq hr hs, ?lpt, fun j hj => ?lptFrame,
    ?lht, fun j hj => ?lhtFrame, ?gpt, fun j hj => ?gptFrame, fun h1 h2 => ?selLocal,
    fun h1 h2 => ?selGlobal, fun h => ?selStays, fun j hj => ?selFrame, tnTrain_ghr ..⟩
  case lpt => exact tnTrain_read_lpt_index Config.params s.cfg tn a o
  case lptFrame => exact tnTrain_read_lpt_other Config.params s.cfg tn a o hj
  case lht =>
    rw [← initHistory_params 32 (Cfg.l s.cfg)]
    exact tnTrain_read_lht_index Config.params s.cfg tn a o
  case lhtFrame =>
    rw [← initHistory_params 32 (Cfg.l s.cfg)]
    exact tnTrain_read_lht_other Config.params s.cfg tn a o hj
  case gpt => exact tnTrain_read_gpt_ghr Config.params s.cfg tn a o
  case gptFrame => exact tnTrain_read_gpt_other Config.params s.cfg tn a o hj
  case selLocal => exact (congrArg BitVec.toNat hsel).trans (selStep_toNat_localOnly _ h1 h2)
  case selGlobal => exact (congrArg BitVec.toNat hsel).trans (selStep_toNat_globalOnly _ h1 h2)
  case selStays => exact hsel.trans (selStep_of_correct_iff _ h)
  case selFrame => exact tnTrain_read_sel_other Config.params s.cfg tn a o hj

end Sys2Proof.Machine

/-! PROOFS. Custom (spec/44_perceptron.md, R157, R158): the sum over the 30 history lanes, the update of
one row lane by lane, what a TRAIN leaves at every row of the table, and the answers of the two
operations. -/

namespace Sys2Proof.Machine

/-! ### The row and its sum (R150, R156) -/

/-- PT_ROW as a remainder: bits 31 to 8 of the address have no effect (R57). -/
theorem ptRow_eq_mod (a : Addr) : ptRow a = a.toNat % 256 := lowBits_eq a Config.rowIndexBits

/-- With the default parameters a row that was never written holds 31 zero weights (D9). -/
theorem initRow_params : initRow Config.params = Vector.replicate 31 0#8 := rfl

/-- The row of an address with R57's index written as a remainder. -/
theorem pcRow_params (pc : Custom) (a : Addr) :
    pcRow Config.params pc a = Table.read (Vector.replicate 31 0#8) pc.pt (a.toNat % 256) := by
  rw [pcRow, ptRow_eq_mod, initRow_params]

theorem percSum_eq_sum (row : Row) (h : PercHistory) :
    percSum row h = (row[0]).toInt + ∑ k : Fin 30, percTerm row h k := by
  rw [percSum, Fin.sum_univ_def]

/-! ### The gate and the lanes (R160, R161, R162) -/

theorem updateGate_iff (prm : Params) (y : Int) (o : Direction) :
    updateGate prm y o = true ↔ y.natAbs ≤ prm.theta ∨ decide (0 ≤ y) ≠ o := by
  rw [updateGate, Bool.or_eq_true, decide_eq_true_iff, bne_iff_ne]

section Lanes
variable (row : Row) (h : PercHistory) (o : Direction)

/-- The bias lane steps with the outcome. -/
theorem rowStep_bias : (rowStep row h o)[0] = sat8Step row[0] o := by
  simp [rowStep, laneUp]

/-- The lane of history bit `k` steps up when that bit equals the outcome. -/
theorem rowStep_historyLane (k : Fin 30) :
    (rowStep row h o)[k.val + 1] = sat8Step row[k.val + 1] (h.getLsbD k.val == o) := by
  simp [rowStep, laneUp]

theorem rowStep_bias_toInt : ((rowStep row h o)[0]).toInt =
    if o then min ((row[0]).toInt + 1) 127 else max ((row[0]).toInt - 1) (-128) := by
  rw [rowStep_bias, sat8Step_toInt]

theorem rowStep_historyLane_toInt (k : Fin 30) : ((rowStep row h o)[k.val + 1]).toInt =
    if h.getLsbD k.val = o then min ((row[k.val + 1]).toInt + 1) 127
    else max ((row[k.val + 1]).toInt - 1) (-128) := by
  rw [rowStep_historyLane, sat8Step_toInt]
  simp only [beq_iff_eq]

end Lanes

/-! ### What TRAIN.CUSTOM leaves in the table (R158) -/

section Train
variable (prm : Params) (pc : Custom) (a : Addr) (o : Direction)

@[simp] theorem pcTrain_ghr : (pcTrain prm pc a o).ghr = hshift pc.ghr o Config.pghrWidth := rfl

theorem pcTrain_pt : (pcTrain prm pc a o).pt =
    if updateGate prm (percY prm pc a) o then
      Table.write (initRow prm) pc.pt (ptRow a) (rowStep (pcRow prm pc a) pc.ghr o)
    else pc.pt := rfl

/-- Behind an open gate every lane of the address's row steps by the history before the shift. -/
theorem pcTrain_pcRow_of_gate (hg : updateGate prm (percY prm pc a) o = true) :
    pcRow prm (pcTrain prm pc a o) a = rowStep (pcRow prm pc a) pc.ghr o := by
  rw [pcRow, pcTrain_pt, if_pos hg, Table.read_write_same]

theorem pcTrain_pt_of_not_gate (hg : ¬updateGate prm (percY prm pc a) o = true) :
    (pcTrain prm pc a o).pt = pc.pt := by
  rw [pcTrain_pt, if_neg hg]

/-- TRAIN leaves every other row alone, whether the gate is open or not. -/
theorem pcTrain_read_other {j : Nat} (hj : j ≠ ptRow a) :
    Table.read (initRow prm) (pcTrain prm pc a o).pt j = Table.read (initRow prm) pc.pt j := by
  by_cases hg : updateGate prm (percY prm pc a) o = true
  · rw [pcTrain_pt, if_pos hg, Table.read_write_other _ _ _ _ _ hj]
  · rw [pcTrain_pt_of_not_gate prm pc a o hg]

end Train

/-! ### PREDICT.CUSTOM and TRAIN.CUSTOM -/

theorem exec_predictCustom (a : Addr) (s : State) : exec (.predictCustom a) s =
    s.withCustom fun pc => .next (s.respond (pcPredict Config.params pc a)) := rfl

theorem exec_trainCustom (a : Addr) (o : Direction) (s : State) : exec (.trainCustom a o) s =
    s.withCustom fun pc => .next (s.trained (.custom (pcTrain Config.params pc a o))) := rfl

/-- Settles O21: the word selects the row of code 3, and the sum the statement writes out is `percY`, whose
sign is the response. -/
theorem predictCustomIsTheSignOfTheSum : Obligations.PredictCustomIsTheSignOfTheSum := by
  intro a s pc w y hw hy
  rw [← pcRow_params] at hw
  subst hw
  have hsum : y = percY Config.params pc a := hy.trans (percSum_eq_sum _ _).symm
  subst hsum
  rw [exec_predictCustom]
  exact ⟨decode_predict_dispatchWord 3 a, fun hr hs => State.withCustom_eq hr hs,
    State.withCustom_notReady⟩

/-- Settles O22: behind an open gate the row is `rowStep` of the old one, lane by lane; behind a closed one
the table is the old one; the history shifts in both cases. -/
theorem trainCustomUpdatesTheRowThroughTheGate : Obligations.TrainCustomUpdatesTheRowThroughTheGate := by
  intro a o s pc r w y hr hw hy
  subst hr
  rw [← pcRow_params] at hw
  subst hw
  have hsum : y = percY Config.params pc a := hy.trans (percSum_eq_sum _ _).symm
  subst hsum
  rw [exec_trainCustom]
  refine ⟨decode_train_dispatchWord 3 a o, fun hready hs => ?_, State.withCustom_notReady⟩
  refine ⟨pcTrain Config.params pc a o, pcRow Config.params (pcTrain Config.params pc a o) a,
    State.withCustom_eq hready hs, pcRow_params _ a, fun hgate => ?stepped, fun hgate => ?kept,
    fun j hj => ?framed, pcTrain_ghr ..⟩
  case stepped =>
    rw [pcTrain_pcRow_of_gate _ _ _ _ ((updateGate_iff ..).mpr hgate)]
    exact ⟨rowStep_bias_toInt .., rowStep_historyLane_toInt _ _ _⟩
  case kept =>
    rw [pcRow, pcTrain_pt_of_not_gate _ _ _ _ (mt (updateGate_iff ..).mp hgate), pcRow]
  case framed =>
    rw [← ptRow_eq_mod] at hj
    exact pcTrain_read_other Config.params pc a o hj

end Sys2Proof.Machine

/-! PROOFS. Dispatch (spec/45_dispatch_init.md, R175 to R177): the rows the codes 4 to 7 select, and what
the two operations of an unknown strategy answer. -/

namespace Sys2Proof

section UnknownCode
variable {v : VariantCode}

/-- A code of 4 or more is none of the four codes that name a strategy. -/
theorem variantCode_ne_of_four_le (hv : 4 ≤ v.toNat) : v ≠ 0 ∧ v ≠ 1 ∧ v ≠ 2 ∧ v ≠ 3 := by
  refine ⟨?_, ?_, ?_, ?_⟩ <;> (rintro rfl; exact absurd hv (by decide))

theorem dispatchPredict_of_four_le (hv : 4 ≤ v.toNat) (a : Addr) :
    dispatchPredict v a = .predictUnknown a := by
  obtain ⟨h0, h1, h2, h3⟩ := variantCode_ne_of_four_le hv
  rw [dispatchPredict, if_neg h0, if_neg h1, if_neg h2, if_neg h3]

theorem dispatchTrain_of_four_le (hv : 4 ≤ v.toNat) (a : Addr) (o : Direction) :
    dispatchTrain v a o = .trainUnknown a o := by
  obtain ⟨h0, h1, h2, h3⟩ := variantCode_ne_of_four_le hv
  rw [dispatchTrain, if_neg h0, if_neg h1, if_neg h2, if_neg h3]

end UnknownCode

namespace Machine

theorem exec_predictUnknown (a : Addr) (s : State) :
    exec (.predictUnknown a) s = s.withUnknown (.next (s.respond notTaken)) := rfl

theorem exec_trainUnknown (a : Addr) (o : Direction) (s : State) :
    exec (.trainUnknown a o) s = s.withUnknown (.next (s.trained .unknown)) := rfl

/-- Training that writes back the strategy state it finds clears the response and nothing else. -/
theorem State.trained_of_strategy_eq {s : State} {st : Strategy} (hs : s.strategy = st) :
    s.trained st = { s with response := none } := by
  rw [State.trained, ← hs]

/-- Settles O28: a ready block reads a PREDICT or TRAIN word as the row that `dispatchPredict` or
`dispatchTrain` gives for its code; the codes 0 to 3 name a strategy each, the others are unknown. -/
theorem dispatchFollowsTheVariantTable : Obligations.DispatchFollowsTheVariantTable := by
  intro v a o
  rw [decodeRequest_predictWord, decodeRequest_trainWord]
  refine ⟨?static, ?gshare, ?tournament, ?custom, fun hv => ?unknown⟩
  case static | gshare | tournament | custom => rintro rfl; exact ⟨rfl, rfl⟩
  case unknown =>
    rw [dispatchPredict_of_four_le hv, dispatchTrain_of_four_le hv]
    exact ⟨rfl, rfl⟩

/-- Settles O29: the word selects the unknown row, whose one answer is the response. -/
theorem predictUnknownRespondsNotTaken : Obligations.PredictUnknownRespondsNotTaken := by
  intro a s v hv
  rw [decode_predict_dispatchWord, dispatchPredict_of_four_le hv, exec_predictUnknown]
  exact ⟨rfl, State.withUnknown_eq, State.withUnknown_notReady⟩

/-- Settles O30: the word selects the unknown row, and the training writes back the strategy state it
finds (`State.trained_of_strategy_eq`). -/
theorem trainUnknownChangesNothing : Obligations.TrainUnknownChangesNothing := by
  intro a o s v hv
  rw [decode_train_dispatchWord, dispatchTrain_of_four_le hv, exec_trainUnknown]
  refine ⟨rfl, fun hr hs => ?_, State.withUnknown_notReady⟩
  rw [State.withUnknown_eq hr hs, State.trained_of_strategy_eq hs]

end Machine

end Sys2Proof

/-! PROOFS. Faults (spec/60_exceptions.md, R196): there is no fault for a step to answer. -/

namespace Sys2Proof.Machine

/-- The complete list of synchronous exception causes is empty (R196): `Fault` has no constructor. -/
theorem isEmpty_fault : IsEmpty Fault := ⟨fun f => nomatch f⟩

/-- Settles O40: a fault that a step could answer would be an element of `Fault`, and there is none. -/
theorem nothingFaults : Obligations.NothingFaults :=
  ⟨isEmpty_fault, fun _ f => isEmpty_fault.elim f⟩

end Sys2Proof.Machine

/-! PROOFS. Encoding (spec/30_encoding.md, R72 to R76, R81 to R83): a word whose reserved bits are 0 is the
encoding of its own fields, so the decoder accepts the encodings and nothing else, and the opcode map
selects exactly the rows it decodes to. -/

namespace Sys2Proof

/-! ### A word with no reserved bit set is the encoding of its fields -/

section Fields
variable {r : Request}

theorem op_toNat (r : Request) : (Request.op r).toNat = r.toNat / 2 ^ 34 := by
  have := r.isLt
  rw [Request.op, field_toNat]
  omega

theorem exists_predictWord_iff : (∃ a, r = predictWord a) ↔ r.toNat / 2 ^ 32 = 0 := by
  constructor
  · rintro ⟨a, rfl⟩
    have := a.isLt
    rw [predictWord_toNat]
    omega
  · intro h
    refine ⟨Request.addr r, BitVec.eq_of_toNat_eq ?_⟩
    rw [predictWord_toNat, Request.addr, field_toNat]
    omega

theorem exists_trainWord_iff : (∃ a o, r = trainWord a o) ↔ r.toNat / 2 ^ 33 = 2 := by
  constructor
  · rintro ⟨a, o, rfl⟩
    have := a.isLt
    have := Bool.toNat_le o
    rw [trainWord_toNat]
    omega
  · intro h
    refine ⟨Request.addr r, Request.outcome r, BitVec.eq_of_toNat_eq ?_⟩
    have hout : (Request.outcome r).toNat = r.toNat / 2 ^ 32 % 2 := by
      rw [Request.outcome, bit_eq]
      rcases Nat.mod_two_eq_zero_or_one (r.toNat / 2 ^ 32) with h0 | h1
      · rw [h0]; rfl
      · rw [h1]; rfl
    rw [trainWord_toNat, hout, Request.addr, field_toNat]
    omega

theorem exists_initWord_iff : (∃ v g l p, r = initWord v g l p) ↔ r.toNat / 2 ^ 21 = 2 ^ 14 := by
  constructor
  · rintro ⟨v, g, l, p, rfl⟩
    have := v.isLt; have := g.isLt; have := l.isLt; have := p.isLt
    rw [initWord_toNat]
    omega
  · intro h
    refine ⟨Request.variant r, Request.gbits r, Request.lbits r, Request.pbits r,
      BitVec.eq_of_toNat_eq ?_⟩
    rw [initWord_toNat, Request.variant, Request.gbits, Request.lbits, Request.pbits]
    simp only [field_toNat]
    omega

/-- The conditions of R83 for a PREDICT: OP is 0 and no reserved bit is set. -/
theorem exists_predictWord_of_fields (hop : Request.op r = 0) (hres : Request.predictReserved r = 0) :
    ∃ a, r = predictWord a := by
  have hop' := congrArg BitVec.toNat hop
  have hres' := congrArg BitVec.toNat hres
  rw [op_toNat] at hop'
  rw [Request.predictReserved, field_toNat] at hres'
  rw [exists_predictWord_iff]
  simp only [BitVec.ofNat_eq_ofNat, BitVec.toNat_ofNat, Nat.zero_mod] at hop' hres'
  omega

/-- The conditions of R83 for a TRAIN: OP is 1 and the reserved bit is not set. -/
theorem exists_trainWord_of_fields (hop : Request.op r = 1) (hres : Request.trainReserved r = false) :
    ∃ a o, r = trainWord a o := by
  have hop' := congrArg BitVec.toNat hop
  rw [op_toNat] at hop'
  rw [Request.trainReserved, bit_eq, decide_eq_false_iff_not] at hres
  rw [exists_trainWord_iff]
  simp only [BitVec.ofNat_eq_ofNat, BitVec.toNat_ofNat] at hop'
  omega

/-- The conditions of R83 for an INIT: OP is 2 and no reserved bit is set. -/
theorem exists_initWord_of_fields (hop : Request.op r = 2) (hres : Request.initReserved r = 0) :
    ∃ v g l p, r = initWord v g l p := by
  have hop' := congrArg BitVec.toNat hop
  have hres' := congrArg BitVec.toNat hres
  rw [op_toNat] at hop'
  rw [Request.initReserved, field_toNat] at hres'
  rw [exists_initWord_iff]
  simp only [BitVec.ofNat_eq_ofNat, BitVec.toNat_ofNat] at hop' hres'
  omega

end Fields

/-! ### What the decoder rejects, and what it accepts (R83) -/

section Verdict
variable {ready : Bool} {v : VariantCode} {r : Request}

/-- OP is a 2-bit field. -/
theorem op_cases (r : Request) :
    Request.op r = 0 ∨ Request.op r = 1 ∨ Request.op r = 2 ∨ Request.op r = 3 := by
  generalize Request.op r = op
  revert op
  decide

theorem decodeRequest_op_three (hop : Request.op r = 3) :
    decodeRequest ready v r = .error .reservedOp := if_pos hop

theorem decodeRequest_initReserved (hop : Request.op r = 2) (hres : Request.initReserved r ≠ 0) :
    decodeRequest ready v r = .error .reservedBits := by
  simpa [decodeRequest, hop] using hres

theorem decodeRequest_notReady (hop : Request.op r = 0 ∨ Request.op r = 1) :
    decodeRequest false v r = .error .notReady := by
  rcases hop with hop | hop <;> simp [decodeRequest, hop]

theorem decodeRequest_predictReserved (hop : Request.op r = 0) (hres : Request.predictReserved r ≠ 0) :
    decodeRequest true v r = .error .reservedBits := by
  simpa [decodeRequest, hop] using hres

theorem decodeRequest_trainReserved (hop : Request.op r = 1) (hres : Request.trainReserved r = true) :
    decodeRequest true v r = .error .reservedBits := by
  simp [decodeRequest, hop, hres]

/-- A request that decodes is a word of the encoder, and but for INIT the block is ready. -/
theorem word_of_decodeRequest_ok {i : Instr} (h : decodeRequest ready v r = .ok i) :
    (∃ v' g l p, r = initWord v' g l p) ∨ (ready = true ∧ ∃ a, r = predictWord a) ∨
      (ready = true ∧ ∃ a o, r = trainWord a o) := by
  have hready : Request.op r = 0 ∨ Request.op r = 1 → ready = true := fun hop =>
    Bool.eq_true_of_not_eq_false fun hf => by
      subst hf; rw [decodeRequest_notReady hop] at h; cases h
  rcases op_cases r with hop | hop | hop | hop
  · obtain rfl := hready (.inl hop)
    by_cases hres : Request.predictReserved r = 0
    · exact .inr (.inl ⟨rfl, exists_predictWord_of_fields hop hres⟩)
    · rw [decodeRequest_predictReserved hop hres] at h; cases h
  · obtain rfl := hready (.inr hop)
    cases hres : Request.trainReserved r with
    | false => exact .inr (.inr ⟨rfl, exists_trainWord_of_fields hop hres⟩)
    | true => rw [decodeRequest_trainReserved hop hres] at h; cases h
  · by_cases hres : Request.initReserved r = 0
    · exact .inl (exists_initWord_of_fields hop hres)
    · rw [decodeRequest_initReserved hop hres] at h; cases h
  · rw [decodeRequest_op_three hop] at h; cases h

/-- Settles O36: an accepted request is a word of the encoder (`word_of_decodeRequest_ok`), and on each of
the three formats the decoder's answer is known. -/
theorem decoderAcceptsExactlyTheEncodings : Obligations.DecoderAcceptsExactlyTheEncodings := by
  intro ready v r i
  constructor
  · intro h
    rcases word_of_decodeRequest_ok h with ⟨v', g, l, p, rfl⟩ | ⟨rfl, a, rfl⟩ | ⟨rfl, a, o, rfl⟩
    · rw [decodeRequest_initWord] at h; cases h; exact .inl ⟨v', g, l, p, rfl, rfl⟩
    · rw [decodeRequest_predictWord] at h; cases h; exact .inr (.inl ⟨rfl, a, rfl, rfl⟩)
    · rw [decodeRequest_trainWord] at h; cases h; exact .inr (.inr ⟨rfl, a, o, rfl, rfl⟩)
  · rintro (⟨v', g, l, p, rfl, rfl⟩ | ⟨rfl, a, rfl, rfl⟩ | ⟨rfl, a, o, rfl, rfl⟩)
    · exact decodeRequest_initWord ready v v' g l p
    · exact decodeRequest_predictWord v a
    · exact decodeRequest_trainWord v a o

end Verdict

/-! ### The encoder by formats -/

/-- Every operation is an INIT, or what a PREDICT or a TRAIN word is under the operation's own code. -/
theorem instr_cases (i : Instr) :
    (∃ v g l p, i = .init v g l p) ∨
    (∃ a, i = dispatchPredict (rowVariant i) a ∧ encodeRequest i = predictWord a) ∨
    (∃ a o, i = dispatchTrain (rowVariant i) a o ∧ encodeRequest i = trainWord a o) := by
  cases i with
  | init v g l p => exact .inl ⟨v, g, l, p, rfl⟩
  | predictStatic a | predictGshare a | predictTournament a | predictCustom a | predictUnknown a =>
    exact .inr (.inl ⟨a, rfl, rfl⟩)
  | trainStatic a o | trainGshare a o | trainTournament a o | trainCustom a o | trainUnknown a o =>
    exact .inr (.inr ⟨a, o, rfl, rfl⟩)

/-- With READY 1 and the operation's own code before it, the request of an operation decodes to it. -/
theorem decodeRequest_encodeRequest (i : Instr) :
    decodeRequest true (rowVariant i) (encodeRequest i) = .ok i := by
  rcases instr_cases i with ⟨v, g, l, p, rfl⟩ | ⟨a, hi, hw⟩ | ⟨a, o, hi, hw⟩
  · exact decodeRequest_initWord ..
  · rw [hw, decodeRequest_predictWord, ← hi]
  · rw [hw, decodeRequest_trainWord, ← hi]

/-- Settles O35: the two parts of the dispatch word are read back, and the request decodes under the
operation's own code (`decodeRequest_encodeRequest`). -/
theorem decodeInvertsEncode : Obligations.DecodeInvertsEncode := by
  intro i
  rw [decode, encode, dispatchWord_variant, dispatchWord_request, decodeRequest_encodeRequest]

/-! ### The opcode map (R82) -/

/-- The mnemonic of a PREDICT's row depends on the strategy code alone. -/
theorem mnemonicOf_dispatchPredict (v : VariantCode) (a : Addr) :
    mnemonicOf (dispatchPredict v a) = mnemonicOf (dispatchPredict v 0) := by
  unfold dispatchPredict
  repeat' split
  all_goals rfl

/-- The mnemonic of a TRAIN's row depends on the strategy code alone. -/
theorem mnemonicOf_dispatchTrain (v : VariantCode) (a : Addr) (o : Direction) :
    mnemonicOf (dispatchTrain v a o) = mnemonicOf (dispatchTrain v 0 false) := by
  unfold dispatchTrain
  repeat' split
  all_goals rfl

/-- Two codes select the same PREDICT row when they are equal or both unknown (R82, R175). -/
theorem predictMnemonic_inj : ∀ v k : VariantCode,
    mnemonicOf (dispatchPredict v 0) = mnemonicOf (dispatchPredict k 0) ↔
      min v.toNat 4 = min k.toNat 4 := by decide

/-- Two codes select the same TRAIN row when they are equal or both unknown (R82, R175). -/
theorem trainMnemonic_inj : ∀ v k : VariantCode,
    mnemonicOf (dispatchTrain v 0 false) = mnemonicOf (dispatchTrain k 0 false) ↔
      min v.toNat 4 = min k.toNat 4 := by decide

theorem predictMnemonic_ne_trainMnemonic : ∀ v k : VariantCode,
    mnemonicOf (dispatchPredict v 0) ≠ mnemonicOf (dispatchTrain k 0 false) := by decide

theorem predictMnemonic_ne_init : ∀ v : VariantCode, mnemonicOf (dispatchPredict v 0) ≠ "INIT" := by
  decide

theorem trainMnemonic_ne_init : ∀ v : VariantCode, mnemonicOf (dispatchTrain v 0 false) ≠ "INIT" := by
  decide

/-- Only the word of an INIT decodes to it: no strategy code makes a PREDICT or a TRAIN one. -/
theorem eq_initWord_of_decodeRequest {ready : Bool} {v v' : VariantCode} {r : Request}
    {g l p : WidthField} (h : decodeRequest ready v r = .ok (.init v' g l p)) :
    r = initWord v' g l p := by
  rcases (decoderAcceptsExactlyTheEncodings ..).mp h with
    ⟨_, _, _, _, hi, hr⟩ | ⟨-, a, hi, -⟩ | ⟨-, a, o, hi, -⟩
  · cases hi; exact hr
  · have hm := congrArg mnemonicOf hi
    rw [mnemonicOf_dispatchPredict] at hm
    exact absurd hm.symm (predictMnemonic_ne_init v)
  · have hm := congrArg mnemonicOf hi
    rw [mnemonicOf_dispatchTrain] at hm
    exact absurd hm.symm (trainMnemonic_ne_init v)

section Rows
variable (dw : DispatchWord)

theorem variant_toNat : (DispatchWord.variant dw).toNat = dw.toNat / 2 ^ 36 := by
  have := dw.isLt
  rw [DispatchWord.variant, field_toNat]
  omega

theorem request_toNat : (DispatchWord.request dw).toNat = dw.toNat % 2 ^ 36 := by
  rw [DispatchWord.request, field_toNat, Nat.pow_zero, Nat.div_one]

/-- The decoder answers with an operation of the row of mnemonic `m`. -/
def DecodesToRow (m : String) : Prop := ∃ i, decode dw = .ok i ∧ mnemonicOf i = m

variable {dw}

theorem decodesToRow_iff {m : String} : DecodesToRow dw m ↔
    ("INIT" = m ∧ dw.toNat % 2 ^ 36 / 2 ^ 21 = 2 ^ 14) ∨
    (mnemonicOf (dispatchPredict (DispatchWord.variant dw) 0) = m ∧ dw.toNat % 2 ^ 36 / 2 ^ 32 = 0) ∨
    (mnemonicOf (dispatchTrain (DispatchWord.variant dw) 0 false) = m ∧
      dw.toNat % 2 ^ 36 / 2 ^ 33 = 2) := by
  rw [← request_toNat, ← exists_initWord_iff, ← exists_predictWord_iff, ← exists_trainWord_iff]
  constructor
  · rintro ⟨i, hi, rfl⟩
    rcases (decoderAcceptsExactlyTheEncodings ..).mp hi with
      ⟨v, g, l, p, rfl, hr⟩ | ⟨-, a, rfl, hr⟩ | ⟨-, a, o, rfl, hr⟩
    · exact .inl ⟨rfl, v, g, l, p, hr⟩
    · exact .inr (.inl ⟨(mnemonicOf_dispatchPredict _ a).symm, a, hr⟩)
    · exact .inr (.inr ⟨(mnemonicOf_dispatchTrain _ a o).symm, a, o, hr⟩)
  · rintro (⟨rfl, v, g, l, p, hr⟩ | ⟨rfl, a, hr⟩ | ⟨rfl, a, o, hr⟩)
    · exact ⟨.init v g l p, by rw [decode, hr, decodeRequest_initWord], rfl⟩
    · exact ⟨_, by rw [decode, hr, decodeRequest_predictWord], mnemonicOf_dispatchPredict _ a⟩
    · exact ⟨_, by rw [decode, hr, decodeRequest_trainWord], mnemonicOf_dispatchTrain _ a o⟩

theorem decodesToRow_init_iff : DecodesToRow dw "INIT" ↔ dw.toNat % 2 ^ 36 / 2 ^ 21 = 2 ^ 14 := by
  rw [decodesToRow_iff, eq_self, true_and, eq_false (predictMnemonic_ne_init _),
    eq_false (trainMnemonic_ne_init _), false_and, false_and, or_false, or_false]

theorem decodesToRow_predict_iff (k : VariantCode) :
    DecodesToRow dw (mnemonicOf (dispatchPredict k 0)) ↔
      min (dw.toNat / 2 ^ 36) 4 = min k.toNat 4 ∧ dw.toNat % 2 ^ 36 / 2 ^ 32 = 0 := by
  rw [decodesToRow_iff, eq_false (predictMnemonic_ne_init k).symm,
    eq_false (predictMnemonic_ne_trainMnemonic k _).symm, predictMnemonic_inj, variant_toNat,
    false_and, false_and, false_or, or_false]

theorem decodesToRow_train_iff (k : VariantCode) :
    DecodesToRow dw (mnemonicOf (dispatchTrain k 0 false)) ↔
      min (dw.toNat / 2 ^ 36) 4 = min k.toNat 4 ∧ dw.toNat % 2 ^ 36 / 2 ^ 33 = 2 := by
  rw [decodesToRow_iff, eq_false (trainMnemonic_ne_init k).symm,
    eq_false (predictMnemonic_ne_trainMnemonic _ k), trainMnemonic_inj, variant_toNat,
    false_and, false_and, false_or, false_or]

theorem selects_iff_toNat {m : String} {pattern mask : DispatchWord} :
    OpcodeRow.selects ⟨m, pattern, mask⟩ dw = true ↔ (dw &&& mask).toNat = pattern.toNat := by
  rw [OpcodeRow.selects, decide_eq_true_iff, BitVec.toNat_inj]

/-- The row of a PREDICT under one of the codes 0 to 3. -/
theorem selects_predict_iff {m : String} {pattern : DispatchWord} {k : VariantCode} (hk : k.toNat < 4)
    (hm : m = mnemonicOf (dispatchPredict k 0)) (hp : pattern.toNat = k.toNat * 2 ^ 36) :
    OpcodeRow.selects ⟨m, pattern, 0x7F00000000#39⟩ dw = true ↔ DecodesToRow dw m := by
  have := dw.isLt
  rw [hm, decodesToRow_predict_iff, selects_iff_toNat, hp, and_predictMask]
  omega

/-- The row of a TRAIN under one of the codes 0 to 3. -/
theorem selects_train_iff {m : String} {pattern : DispatchWord} {k : VariantCode} (hk : k.toNat < 4)
    (hm : m = mnemonicOf (dispatchTrain k 0 false)) (hp : pattern.toNat = k.toNat * 2 ^ 36 + 2 ^ 34) :
    OpcodeRow.selects ⟨m, pattern, 0x7E00000000#39⟩ dw = true ↔ DecodesToRow dw m := by
  have := dw.isLt
  rw [hm, decodesToRow_train_iff, selects_iff_toNat, hp, and_trainMask]
  omega

theorem selects_init_iff :
    OpcodeRow.selects ⟨"INIT", 0x0800000000#39, 0x0FFFE00000#39⟩ dw = true ↔ DecodesToRow dw "INIT" := by
  rw [decodesToRow_init_iff, selects_iff_toNat, and_initMask]
  show _ = 2 ^ 35 ↔ _
  omega

theorem selects_predictUnknown_iff :
    OpcodeRow.selects ⟨"PREDICT.UNKNOWN", 0x4000000000#39, 0x4F00000000#39⟩ dw = true ↔
      DecodesToRow dw "PREDICT.UNKNOWN" := by
  have := dw.isLt
  refine Iff.trans ?_ (decodesToRow_predict_iff 4).symm
  rw [selects_iff_toNat, and_predictUnknownMask]
  show _ = 2 ^ 38 ↔ _ = 4 ∧ _
  omega

theorem selects_trainUnknown_iff :
    OpcodeRow.selects ⟨"TRAIN.UNKNOWN", 0x4400000000#39, 0x4E00000000#39⟩ dw = true ↔
      DecodesToRow dw "TRAIN.UNKNOWN" := by
  have := dw.isLt
  refine Iff.trans ?_ (decodesToRow_train_iff 4).symm
  rw [selects_iff_toNat, and_trainUnknownMask]
  show _ = 2 ^ 38 + 2 ^ 34 ↔ _ = 4 ∧ _
  omega

end Rows

/-- Settles O37: row by row, the mask keeps the bits the decoder looks at: the format of the request and,
for a PREDICT and a TRAIN, the code. -/
theorem decoderAgreesWithTheOpcodeMap : Obligations.DecoderAgreesWithTheOpcodeMap := by
  intro dw row hrow
  simp only [opcodeMap, List.mem_cons, List.not_mem_nil, or_false] at hrow
  rcases hrow with rfl | rfl | rfl | rfl | rfl | rfl | rfl | rfl | rfl | rfl | rfl
  · exact selects_init_iff
  · exact selects_predict_iff (k := 0) (by decide) rfl rfl
  · exact selects_predict_iff (k := 1) (by decide) rfl rfl
  · exact selects_predict_iff (k := 2) (by decide) rfl rfl
  · exact selects_predict_iff (k := 3) (by decide) rfl rfl
  · exact selects_predictUnknown_iff
  · exact selects_train_iff (k := 0) (by decide) rfl rfl
  · exact selects_train_iff (k := 1) (by decide) rfl rfl
  · exact selects_train_iff (k := 2) (by decide) rfl rfl
  · exact selects_train_iff (k := 3) (by decide) rfl rfl
  · exact selects_trainUnknown_iff

/-! ### Written words (spec/95_test_vectors.md section 2.2) -/

/-- Settles O38: each of the seven words is a literal, which the decoder evaluates. -/
theorem writtenWordsDecode : Obligations.WrittenWordsDecode := by
  refine ⟨?_, ?_, ?_, ?_, ?_, ?_, ?_⟩ <;> decide

namespace Machine

/-! ### The step on a request that does not decode, and on one that does (R83) -/

/-- Settles O39: the decoder's verdict on each malformed request, which the step refuses by its name. -/
theorem malformedRequestsAreRefusedInOrder : Obligations.MalformedRequestsAreRefusedInOrder := by
  intro s r rest hs
  refine ⟨fun hop => ?_, fun hop hres => ?_, fun hop hr => ?_, fun hop hr hres => ?_,
    fun hop hr hres => ?_⟩
  · exact step_of_reject hs (decodeRequest_op_three hop)
  · exact step_of_reject hs (decodeRequest_initReserved hop hres)
  · exact step_of_reject hs (hr ▸ decodeRequest_notReady hop)
  · exact step_of_reject hs (hr ▸ decodeRequest_predictReserved hop hres)
  · exact step_of_reject hs (hr ▸ decodeRequest_trainReserved hop hres)

theorem step_of_requests_nil {s : State} (hs : s.requests = []) : step s = .next s := by
  rw [step, State.fetch_nil s hs]

/-- Settles O43: the two answers of `State.fetch`. -/
theorem stepPerformsTheDecodedRequest : Obligations.StepPerformsTheDecodedRequest :=
  ⟨fun _ _ _ _ hs hd => step_of_decode hs hd, fun _ hs => step_of_requests_nil hs⟩

end Machine

end Sys2Proof

/-! PROOFS. The invariant of a ready instance (spec/10_state.md, R20, R48): what INIT makes meets it, and a
TRAIN keeps it table by table. -/

namespace Sys2Proof.Machine

/-! ### A TRAIN keeps each strategy's state well-formed (R48) -/

section Train
variable {prm : Params} {c : CfgWord}

theorem Gshare.Wf.gsTrain {gs : Gshare} (h : gs.Wf prm c) (a : Addr) (o : Direction) :
    (gsTrain prm c gs a o).Wf prm c := by
  obtain ⟨hg, -, hpht⟩ := h
  exact ⟨hg, hshift_lt _ _ _, Table.wf_write _ _ _ _ hpht (gsIndex_lt _ _ _)⟩

/-- A local history, listed or not, is an index of the LPT (R54). -/
theorem Tournament.Wf.lptIndex_lt {tn : Tournament} (h : tn.Wf prm c) (a : Addr) :
    lptIndex prm c tn a < 2 ^ Cfg.l c := by
  obtain ⟨-, -, -, -, -, hentries, -⟩ := h
  rw [lptIndex, tnLocalHistory]
  rcases Table.read_cases (initHistory prm 32 (Cfg.l c)) tn.lht (lhtIndex a (Cfg.p c)) with hfill | hlisted
  · rw [hfill]; exact initHistory_lt _ _ _
  · exact hentries _ hlisted

theorem Tournament.Wf.tnTrain {tn : Tournament} (h : tn.Wf prm c) (a : Addr) (o : Direction) :
    (tnTrain prm c tn a o).Wf prm c := by
  have hindex := h.lptIndex_lt a
  obtain ⟨hg, hl, hp, hghr, hlht, hentries, hlpt, hgpt, hsel⟩ := h
  refine ⟨hg, hl, hp, hshift_lt _ _ _, Table.wf_write _ _ _ _ hlht (lowBits_lt _ _), fun e he => ?_,
    Table.wf_write _ _ _ _ hlpt hindex, Table.wf_write _ _ _ _ hgpt hghr,
    Table.wf_write _ _ _ _ hsel hghr⟩
  rcases Table.mem_write _ _ _ _ he with ⟨rfl, -⟩ | hold
  · exact hshift_lt _ _ _
  · exact hentries e hold

theorem Custom.Wf.pcTrain {pc : Custom} (h : pc.Wf prm) (a : Addr) (o : Direction) :
    (pcTrain prm pc a o).Wf prm := by
  by_cases hg : updateGate prm (percY prm pc a) o = true
  · rw [Custom.Wf, pcTrain_pt, if_pos hg]
    exact Table.wf_write _ _ _ _ h (lowBits_lt _ _)
  · rw [Custom.Wf, pcTrain_pt_of_not_gate _ _ _ _ hg]
    exact h

end Train

/-! ### The invariant of the strategy state -/

section Wf
variable {prm : Params} {c : CfgWord} {st st' : Strategy}

theorem Strategy.wf_static : Strategy.wf prm c .static = true ↔ Cfg.variant c = 0 := by
  simp [Strategy.wf, Strategy.hasCode]

theorem Strategy.wf_gshare {gs : Gshare} : Strategy.wf prm c (.gshare gs) = true ↔
    Cfg.variant c = 1 ∧ gs.Wf prm c :=
  Bool.and_eq_true_iff.trans (and_congr decide_eq_true_iff decide_eq_true_iff)

theorem Strategy.wf_tournament {tn : Tournament} : Strategy.wf prm c (.tournament tn) = true ↔
    Cfg.variant c = 2 ∧ tn.Wf prm c :=
  Bool.and_eq_true_iff.trans (and_congr decide_eq_true_iff decide_eq_true_iff)

theorem Strategy.wf_custom {pc : Custom} : Strategy.wf prm c (.custom pc) = true ↔
    Cfg.variant c = 3 ∧ pc.Wf prm :=
  Bool.and_eq_true_iff.trans (and_congr decide_eq_true_iff decide_eq_true_iff)

theorem Strategy.wf_unknown : Strategy.wf prm c .unknown = true ↔ 4 ≤ (Cfg.variant c).toNat := by
  simp [Strategy.wf, Strategy.hasCode]

theorem Strategy.hasCode_of_wf (h : Strategy.wf prm c st = true) :
    Strategy.hasCode (Cfg.variant c) st = true := (Bool.and_eq_true_iff.mp h).1

/-- A training stays in the alternative of the strategy it finds (R20). -/
theorem TrainedTo.hasCode_eq (h : TrainedTo c st st') (v : VariantCode) :
    Strategy.hasCode v st' = Strategy.hasCode v st := by
  cases h <;> rfl

theorem TrainedTo.wf (h : TrainedTo c st st') (hwf : st.wf Config.params c = true) :
    st'.wf Config.params c = true := by
  cases h with
  | static => exact hwf
  | gshare gs a o =>
    rw [Strategy.wf_gshare] at hwf ⊢
    exact ⟨hwf.1, hwf.2.gsTrain a o⟩
  | tournament tn a o =>
    rw [Strategy.wf_tournament] at hwf ⊢
    exact ⟨hwf.1, hwf.2.tnTrain a o⟩
  | custom pc a o =>
    rw [Strategy.wf_custom] at hwf ⊢
    exact ⟨hwf.1, hwf.2.pcTrain a o⟩
  | unknown => exact hwf

end Wf

/-! ### What INIT makes (R49, R185) -/

/-- The eight strategy codes (R22): four that name a strategy, and the unknown ones. -/
theorem variantCode_cases : ∀ v : VariantCode, v = 0 ∨ v = 1 ∨ v = 2 ∨ v = 3 ∨ 4 ≤ v.toNat := by decide

theorem widthInRange_iff {prm : Params} {f : WidthField} :
    widthInRange prm f = true ↔ Cfg.WidthOk prm f.toNat := by
  rw [widthInRange, Bool.and_eq_true, decide_eq_true_iff, decide_eq_true_iff]

section InitStrategy
variable (prm : Params) (g : WidthField)

theorem initStrategy_static : initStrategy prm 0 g = .static := rfl

theorem initStrategy_gshare : initStrategy prm 1 g = .gshare ⟨initHistory prm 32 g.toNat, []⟩ := rfl

theorem initStrategy_tournament :
    initStrategy prm 2 g = .tournament ⟨initHistory prm 32 g.toNat, [], [], [], []⟩ := rfl

theorem initStrategy_custom :
    initStrategy prm 3 g = .custom ⟨initHistory prm 31 Config.pghrWidth, []⟩ := rfl

theorem initStrategy_unknown {v : VariantCode} (hv : 4 ≤ v.toNat) : initStrategy prm v g = .unknown := by
  obtain ⟨h0, h1, h2, h3⟩ := variantCode_ne_of_four_le hv
  rw [initStrategy, if_neg h0, if_neg h1, if_neg h2, if_neg h3]

end InitStrategy

/-- The instance a legal INIT makes meets the invariant, for every choice of the parameters. -/
theorem initStrategy_wf {prm : Params} {v : VariantCode} {g l p : WidthField}
    (h : initWidthsOk prm v g l p = true) :
    (initStrategy prm v g).wf prm (Cfg.pack v g l p) = true := by
  rcases variantCode_cases v with rfl | rfl | rfl | rfl | hv
  · rw [initStrategy_static, Strategy.wf_static, Cfg.variant_pack]
  · have hg : widthInRange prm g = true := h
    rw [initStrategy_gshare, Strategy.wf_gshare, Gshare.Wf, Cfg.variant_pack, Cfg.g_pack]
    exact ⟨rfl, widthInRange_iff.mp hg, initHistory_lt _ _ _, Table.wf_nil _ _⟩
  · have hw : (widthInRange prm g && widthInRange prm l && widthInRange prm p) = true := h
    rw [Bool.and_eq_true, Bool.and_eq_true, widthInRange_iff, widthInRange_iff, widthInRange_iff] at hw
    obtain ⟨⟨hg, hl⟩, hp⟩ := hw
    rw [initStrategy_tournament, Strategy.wf_tournament, Tournament.Wf, Cfg.variant_pack, Cfg.g_pack,
      Cfg.l_pack, Cfg.p_pack]
    exact ⟨rfl, hg, hl, hp, initHistory_lt _ _ _, Table.wf_nil _ _, List.forall_mem_nil _,
      Table.wf_nil _ _, Table.wf_nil _ _, Table.wf_nil _ _⟩
  · rw [initStrategy_custom, Strategy.wf_custom, Cfg.variant_pack]
    exact ⟨rfl, Table.wf_nil _ _⟩
  · rw [initStrategy_unknown _ _ hv, Strategy.wf_unknown, Cfg.variant_pack]
    exact hv

/-! ### The step -/

theorem State.inv_initialised {v : VariantCode} {g l p : WidthField}
    (h : initWidthsOk Config.params v g l p = true) (s : State) :
    (State.initialised Config.params v g l p s).Inv := fun _ => initStrategy_wf h

theorem exec_keeps_inv {i : Instr} {s t : State} (hinv : s.Inv) (h : exec i s = .next t) : t.Inv := by
  rcases exec_next_cases h with ⟨v, g, l, p, -, hw, rfl⟩ | ⟨-, b, rfl⟩ | ⟨hready, st, hst, rfl⟩
  · exact State.inv_initialised hw s
  · exact hinv
  · exact fun _ => hst.wf (hinv hready)

/-- Settles O45: a step performs an operation or nothing, and every operation keeps the invariant. -/
theorem everyStepKeepsTheInvariant : Obligations.EveryStepKeepsTheInvariant := by
  intro s t hinv h
  rcases step_next_cases h with ⟨-, rfl⟩ | ⟨r, rest, i, -, -, h⟩
  · exact hinv
  · have hinv' : State.Inv { s with requests := rest } := hinv
    exact exec_keeps_inv hinv' h

/-- Settles O46: READY is 0 at power-on, and of a block that is not ready the invariant says nothing. -/
theorem powerOnMeetsTheInvariant : Obligations.PowerOnMeetsTheInvariant :=
  ⟨fun hready => (nomatch hready), State.reset_ready⟩

/-- Settles O50: an INIT step was the word of that INIT, and the other operations respond or train. -/
theorem onlyInitChangesReadyAndConfiguration : Obligations.OnlyInitChangesReadyAndConfiguration := by
  intro s t h
  rcases step_next_cases h with ⟨-, rfl⟩ | ⟨r, rest, i, hs, hd, h⟩
  · exact ⟨id, .inl ⟨rfl, rfl, fun _ => rfl⟩⟩
  rcases exec_next_cases h with ⟨v, g, l, p, rfl, -, rfl⟩ | ⟨-, b, rfl⟩ | ⟨-, st, hst, rfl⟩
  · have hr : r = initWord v g l p := eq_initWord_of_decodeRequest hd
    exact ⟨fun _ => rfl, .inr ⟨v, g, l, p, rest, hr ▸ hs, rfl, rfl⟩⟩
  · exact ⟨id, .inl ⟨rfl, rfl, fun _ => rfl⟩⟩
  · exact ⟨id, .inl ⟨rfl, rfl, hst.hasCode_eq⟩⟩

end Sys2Proof.Machine

/-! PROOFS. INIT (spec/45_dispatch_init.md, R185 to R189; spec/60_exceptions.md, R202): its check of the
widths, the start state of each strategy, and the first prediction after it (R221). -/

namespace Sys2Proof.Machine

section Check
variable (v : VariantCode) (g l p : WidthField) (s t : State)

/-- INIT's check and the well-formedness of the operation are the same condition (R80, R185). -/
theorem initWidthsOk_eq_wfFor (prm : Params) :
    initWidthsOk prm v g l p = (Instr.init v g l p).wfFor prm := by
  rw [initWidthsOk, Instr.wfFor]
  split
  · rw [Bool.eq_iff_iff, widthInRange_iff, decide_eq_true_iff]
  split
  · rw [Bool.eq_iff_iff, Bool.and_eq_true, Bool.and_eq_true, widthInRange_iff, widthInRange_iff,
      widthInRange_iff, decide_eq_true_iff, and_assoc]
  · rfl

theorem exec_init : exec (.init v g l p) s =
    if (Instr.init v g l p).wf then .next (State.initialised Config.params v g l p s)
    else .refused .widthOutOfRange := by
  rw [Instr.wf, ← initWidthsOk_eq_wfFor]
  rfl

variable {v g l p}

theorem exec_init_of_wf (h : (Instr.init v g l p).wf = true) :
    exec (.init v g l p) s = .next (State.initialised Config.params v g l p s) := by
  rw [exec_init, if_pos h]

theorem exec_init_of_not_wf (h : ¬(Instr.init v g l p).wf = true) :
    exec (.init v g l p) s = .refused .widthOutOfRange := by
  rw [exec_init, if_neg h]

variable {s t}

theorem exec_init_refused_iff {e : Refusal} : exec (.init v g l p) s = .refused e ↔
    ¬(Instr.init v g l p).wf = true ∧ e = .widthOutOfRange := by
  by_cases h : (Instr.init v g l p).wf = true
  · simp [exec_init_of_wf s h, h]
  · simp [exec_init_of_not_wf s h, h, eq_comm]

theorem exec_init_next_iff :
    (∃ t, exec (.init v g l p) s = .next t) ↔ (Instr.init v g l p).wf = true := by
  by_cases h : (Instr.init v g l p).wf = true
  · simp [exec_init_of_wf s h, h]
  · simp [exec_init_of_not_wf s h, h]

/-- The widths the strategy reads are legal (R8 to R10, R80). -/
theorem init_wf_iff : (Instr.init v g l p).wf = true ↔
    (v = 1 ∨ v = 2 → WidthField.Legal Config.params g) ∧
    (v = 2 → WidthField.Legal Config.params l ∧ WidthField.Legal Config.params p) := by
  rw [Instr.wf, Instr.wfFor]
  by_cases h1 : v = 1
  · subst h1
    rw [if_pos rfl, decide_eq_true_iff]
    exact ⟨fun hg => ⟨fun _ => hg, fun h2 => absurd h2 (by decide)⟩, fun h => h.1 (.inl rfl)⟩
  by_cases h2 : v = 2
  · subst h2
    rw [if_neg h1, if_pos rfl, decide_eq_true_iff]
    exact ⟨fun ⟨hg, hlp⟩ => ⟨fun _ => hg, fun _ => hlp⟩, fun ⟨hg, hlp⟩ => ⟨hg (.inr rfl), hlp rfl⟩⟩
  · rw [if_neg h1, if_neg h2]
    exact iff_of_true rfl ⟨fun h => absurd h (not_or.mpr ⟨h1, h2⟩), fun h => absurd h h2⟩

end Check

/-- Settles O32: the refusal is the failed check, whose condition `init_wf_iff` writes out. -/
theorem initChecksOnlyTheWidthsItReads : Obligations.InitChecksOnlyTheWidthsItReads := by
  intro v g l p s
  have hwidth : ∀ f : WidthField, ¬WidthField.Legal Config.params f ↔ f.toNat = 0 ∨ 32 < f.toNat := by
    intro f
    rw [WidthField.Legal, Config.params_maxBits]
    omega
  rw [exec_init_refused_iff, init_wf_iff]
  simp only [not_and_or, Classical.not_imp, hwidth, or_assoc, and_true]

/-- Settles O33: the check reads the operands alone, and of the state only the coming requests stay. -/
theorem initForgetsTheEarlierInstance : Obligations.InitForgetsTheEarlierInstance := by
  intro v g l p s t h
  rw [exec_init, exec_init, State.initialised, State.initialised, h]

/-- Settles O31: the state is `State.initialised`; an empty table reads as its fill value. -/
theorem initGivesEachStrategyItsStartState : Obligations.InitGivesEachStrategyItsStartState := by
  intro v g l p s hwf
  refine ⟨_, exec_init_of_wf s hwf, rfl, rfl, rfl, Cfg.variant_pack .., Cfg.gField_pack ..,
    Cfg.lField_pack .., Cfg.pField_pack .., ?static, ?gshare, ?tournament, ?custom, fun hv => ?unknown⟩
  case static => rintro rfl; rfl
  case gshare => rintro rfl; exact ⟨_, rfl, initHistory_params .., fun _ => rfl⟩
  case tournament =>
    rintro rfl
    exact ⟨_, rfl, initHistory_params .., fun _ => rfl, fun _ => rfl, fun _ => rfl, fun _ => rfl⟩
  case custom => rintro rfl; exact ⟨_, rfl, initHistory_params .., fun _ => rfl⟩
  case unknown => exact initStrategy_unknown _ _ hv

end Sys2Proof.Machine

/-! PROOFS. Runs (spec/10_state.md, R43; spec/41_static.md, R117; spec/60_exceptions.md, R195, R204;
spec/70_reset_and_hazards.md, R215, R221, R222): in a ready block of the selected strategy every PREDICT
and TRAIN completes, so every run after an INIT does. -/

namespace Sys2Proof.Machine

/-! ### A PREDICT and a TRAIN where the code selects the strategy (R20, R175) -/

/-- A strategy state of the alternative a code selects: which code and which alternative. -/
theorem Strategy.hasCode_cases {v : VariantCode} {st : Strategy} (h : Strategy.hasCode v st = true) :
    v = 0 ∧ st = .static ∨ (v = 1 ∧ ∃ gs, st = .gshare gs) ∨ (v = 2 ∧ ∃ tn, st = .tournament tn) ∨
      (v = 3 ∧ ∃ pc, st = .custom pc) ∨ 4 ≤ v.toNat ∧ st = .unknown := by
  cases st with
  | static => exact .inl ⟨of_decide_eq_true h, rfl⟩
  | gshare gs => exact .inr (.inl ⟨of_decide_eq_true h, gs, rfl⟩)
  | tournament tn => exact .inr (.inr (.inl ⟨of_decide_eq_true h, tn, rfl⟩))
  | custom pc => exact .inr (.inr (.inr (.inl ⟨of_decide_eq_true h, pc, rfl⟩)))
  | unknown => exact .inr (.inr (.inr (.inr ⟨of_decide_eq_true h, rfl⟩)))

/-- What a PREDICT responds by the strategy state it meets (R115, R121, R133, R157, R176). -/
def Strategy.predict (c : CfgWord) (a : Addr) : Strategy → Direction
  | .static => taken
  | .gshare gs => gsPredict Config.params c gs a
  | .tournament tn => tnPredict Config.params c tn a
  | .custom pc => pcPredict Config.params pc a
  | .unknown => notTaken

/-- What a TRAIN makes of the strategy state it meets (R116, R122, R134, R158, R177). -/
def Strategy.train (c : CfgWord) (a : Addr) (o : Direction) : Strategy → Strategy
  | .static => .static
  | .gshare gs => .gshare (gsTrain Config.params c gs a o)
  | .tournament tn => .tournament (tnTrain Config.params c tn a o)
  | .custom pc => .custom (pcTrain Config.params pc a o)
  | .unknown => .unknown

section Selected
variable {v : VariantCode} {s : State}

theorem exec_dispatchPredict (hr : s.ready = true) (hc : Strategy.hasCode v s.strategy = true) (a : Addr) :
    exec (dispatchPredict v a) s = .next (s.respond (s.strategy.predict s.cfg a)) := by
  rcases Strategy.hasCode_cases hc with
    ⟨rfl, hs⟩ | ⟨rfl, gs, hs⟩ | ⟨rfl, tn, hs⟩ | ⟨rfl, pc, hs⟩ | ⟨hv, hs⟩ <;> rw [hs]
  · exact State.withStatic_eq hr hs
  · exact State.withGshare_eq hr hs
  · exact State.withTournament_eq hr hs
  · exact State.withCustom_eq hr hs
  · rw [dispatchPredict_of_four_le hv]; exact State.withUnknown_eq hr hs

theorem exec_dispatchTrain (hr : s.ready = true) (hc : Strategy.hasCode v s.strategy = true) (a : Addr)
    (o : Direction) :
    exec (dispatchTrain v a o) s = .next (s.trained (s.strategy.train s.cfg a o)) := by
  rcases Strategy.hasCode_cases hc with
    ⟨rfl, hs⟩ | ⟨rfl, gs, hs⟩ | ⟨rfl, tn, hs⟩ | ⟨rfl, pc, hs⟩ | ⟨hv, hs⟩ <;> rw [hs]
  · exact State.withStatic_eq hr hs
  · exact State.withGshare_eq hr hs
  · exact State.withTournament_eq hr hs
  · exact State.withCustom_eq hr hs
  · rw [dispatchTrain_of_four_le hv]; exact State.withUnknown_eq hr hs

end Selected

/-! ### One step of a ready block of the selected strategy (R70, R83) -/

/-- The block is ready and holds the strategy that CFG.VARIANT selects (R20, R26). -/
structure State.Selected (s : State) : Prop where
  ready : s.ready = true
  hasCode : Strategy.hasCode (Cfg.variant s.cfg) s.strategy = true

theorem State.Inv.selected {s : State} (h : s.Inv) (hr : s.ready = true) : s.Selected :=
  ⟨hr, Strategy.hasCode_of_wf (h hr)⟩

section Step
variable {s : State} {rest : List Request} (hsel : s.Selected)
include hsel

theorem step_predictWord {a : Addr} (hq : s.requests = predictWord a :: rest) :
    step s = .next (State.respond { s with requests := rest } (s.strategy.predict s.cfg a)) := by
  have hd := decodeRequest_predictWord (Cfg.variant s.cfg) a
  rw [step_of_decode hq (by rw [hsel.ready, hd])]
  exact exec_dispatchPredict (s := { s with requests := rest }) hsel.ready hsel.hasCode a

theorem step_trainWord {a : Addr} {o : Direction} (hq : s.requests = trainWord a o :: rest) :
    step s = .next (State.trained { s with requests := rest } (s.strategy.train s.cfg a o)) := by
  have hd := decodeRequest_trainWord (Cfg.variant s.cfg) a o
  rw [step_of_decode hq (by rw [hsel.ready, hd])]
  exact exec_dispatchTrain (s := { s with requests := rest }) hsel.ready hsel.hasCode a o

/-- A PREDICT or a TRAIN that waits completes: the request is taken, READY and CFG stay, and the strategy
state is the old one or a trained one. -/
theorem step_branchRequest {r : Request} (hr : BranchRequest r) (hq : s.requests = r :: rest) :
    ∃ t, step s = .next t ∧ t.requests = rest ∧ t.ready = s.ready ∧ t.cfg = s.cfg ∧
      (t.strategy = s.strategy ∨ ∃ a o, t.strategy = s.strategy.train s.cfg a o) := by
  cases hr with
  | predict a => exact ⟨_, step_predictWord hsel hq, rfl, rfl, rfl, .inl rfl⟩
  | train a o => exact ⟨_, step_trainWord hsel hq, rfl, rfl, rfl, .inr ⟨a, o, rfl⟩⟩

end Step

/-- Settles O41: the invariant says that the code selects the strategy state the block holds. -/
theorem everyPredictAndTrainCompletes : Obligations.EveryPredictAndTrainCompletes := by
  intro s r rest hinv hready hq hr
  obtain ⟨t, ht, -⟩ := step_branchRequest (hinv.selected hready) hr hq
  exact ⟨t, ht⟩

/-- Settles O42: a step answers a next state, refuses what the decoder rejects, or refuses the widths of an
INIT; a PREDICT or a TRAIN that decodes completes. -/
theorem stepNeverMeetsAnUnselectedRow : Obligations.StepNeverMeetsAnUnselectedRow := by
  intro s hinv h
  cases hq : s.requests with
  | nil => rw [step_of_requests_nil hq] at h; cases h
  | cons r rest =>
    cases hd : decodeRequest s.ready (Cfg.variant s.cfg) r with
    | error e => rw [step_of_reject hq hd] at h; cases e <;> cases h
    | ok i =>
      rcases word_of_decodeRequest_ok hd with ⟨v, g, l, p, rfl⟩ | ⟨hready, a, rfl⟩ | ⟨hready, a, o, rfl⟩
      · rw [step_of_decode hq (decodeRequest_initWord ..), exec_init_refused_iff] at h
        cases h.2
      · rw [step_predictWord (hinv.selected hready) hq] at h; cases h
      · rw [step_trainWord (hinv.selected hready) hq] at h; cases h

/-! ### Before READY (R215) -/

theorem step_initWord {s : State} {v : VariantCode} {g l p : WidthField} {rest : List Request}
    (hq : s.requests = initWord v g l p :: rest) :
    step s = exec (.init v g l p) { s with requests := rest } :=
  step_of_decode hq (decodeRequest_initWord ..)

/-- Settles O47: while READY is 0 only the word of an INIT decodes, and an INIT completes exactly when its
widths are legal. -/
theorem onlyInitHasAMeaningBeforeReady : Obligations.OnlyInitHasAMeaningBeforeReady := by
  intro s r rest hready hq
  constructor
  · rintro ⟨t, ht⟩
    rcases step_next_cases ht with ⟨hnil, -⟩ | ⟨r', rest', i, hq', hd, -⟩
    · rw [hq] at hnil; cases hnil
    · obtain ⟨rfl, rfl⟩ := List.cons.inj (hq.symm.trans hq')
      rw [hready] at hd
      rcases word_of_decodeRequest_ok hd with ⟨v, g, l, p, rfl⟩ | ⟨hf, -⟩ | ⟨hf, -⟩
      · exact ⟨v, g, l, p, rfl, exec_init_next_iff.mp ⟨t, (step_initWord hq).symm.trans ht⟩⟩
      · cases hf
      · cases hf
  · rintro ⟨v, g, l, p, rfl, hwf⟩
    exact ⟨_, (step_initWord hq).trans (exec_init_of_wf _ hwf)⟩

/-! ### Runs of PREDICT and TRAIN requests (R64, R231) -/

/-- The induction over the requests, once: what a step on a PREDICT or a TRAIN that waits keeps, a run over
any list of them keeps, and it takes exactly those requests. -/
theorem run_branchRequests {P : State → Prop}
    (hstep : ∀ s r rest, P s → s.requests = r :: rest → BranchRequest r →
      ∃ t, step s = .next t ∧ t.requests = rest ∧ P t)
    {rs rest : List Request} {s : State} (hs : P s) (hq : s.requests = rs ++ rest)
    (hrs : ∀ r ∈ rs, BranchRequest r) :
    ∃ t, Host.Core.run core rs.length s = .next t ∧ t.requests = rest ∧ P t := by
  induction rs generalizing s with
  | nil => exact ⟨s, run_zero s, hq, hs⟩
  | cons r rs ih =>
    obtain ⟨hr, hrs⟩ := List.forall_mem_cons.mp hrs
    obtain ⟨u, hu, huq, hPu⟩ := hstep s r (rs ++ rest) hs hq hr
    obtain ⟨t, ht, htq, hPt⟩ := ih hPu huq hrs
    exact ⟨t, (run_succ rs.length hu).trans ht, htq, hPt⟩

/-- A ready block with configuration `c` that meets the invariant. -/
structure State.ReadyWith (c : CfgWord) (s : State) : Prop where
  ready : s.ready = true
  cfg : s.cfg = c
  inv : s.Inv

theorem State.ReadyWith.step {c : CfgWord} (s : State) (r : Request) (rest : List Request)
    (h : s.ReadyWith c) (hq : s.requests = r :: rest) (hr : BranchRequest r) :
    ∃ t, step s = .next t ∧ t.requests = rest ∧ t.ReadyWith c := by
  obtain ⟨t, ht, htq, htready, htcfg, -⟩ := step_branchRequest (h.inv.selected h.ready) hr hq
  exact ⟨t, ht, htq, htready.trans h.ready, htcfg.trans h.cfg, everyStepKeepsTheInvariant s t h.inv ht⟩

theorem State.readyWith_initialised {v : VariantCode} {g l p : WidthField}
    (hwf : (Instr.init v g l p).wf = true) (s : State) :
    (State.initialised Config.params v g l p s).ReadyWith (Cfg.pack v g l p) where
  ready := rfl
  cfg := rfl
  inv := State.inv_initialised ((initWidthsOk_eq_wfFor ..).trans hwf) s

/-- A step on the word of a legal INIT: the start state, the other requests still to come. -/
theorem step_initWord_of_wf {s : State} {v : VariantCode} {g l p : WidthField} {rest : List Request}
    (hwf : (Instr.init v g l p).wf = true) (hq : s.requests = initWord v g l p :: rest) :
    step s = .next (State.initialised Config.params v g l p { s with requests := rest }) :=
  (step_initWord hq).trans (exec_init_of_wf _ hwf)

/-- Settles O51: the INIT makes a ready block with its configuration that meets the invariant, and every
PREDICT and TRAIN keeps it one. -/
theorem everyRunAfterInitCompletes : Obligations.EveryRunAfterInitCompletes := by
  intro s v g l p rs hwf hrs hq
  have hinit := step_initWord_of_wf hwf hq
  obtain ⟨t, hrun, htq, ht⟩ := run_branchRequests State.ReadyWith.step
    (State.readyWith_initialised hwf { s with requests := rs }) (List.append_nil rs).symm hrs
  exact ⟨t, (run_succ rs.length hinit).trans hrun, htq, ht.ready, ht.cfg, ht.inv⟩

/-! ### The constant strategies (R117, R178) -/

/-- A ready block with a configuration and a strategy state that its code selects. -/
structure State.Holds (c : CfgWord) (st : Strategy) (s : State) : Prop where
  selected : s.Selected
  cfg : s.cfg = c
  strategy : s.strategy = st

/-- Where no TRAIN changes the strategy state, any run of PREDICT and TRAIN requests and then a PREDICT
changes nothing but the response. -/
theorem run_constant {s : State} (hsel : s.Selected) {earlier : List Request} {a : Addr}
    (hearlier : ∀ r ∈ earlier, BranchRequest r) (hq : s.requests = earlier ++ [predictWord a])
    (hconst : ∀ b o, s.strategy.train s.cfg b o = s.strategy) :
    Host.Core.run core (earlier.length + 1) s =
      .next { s with requests := [], response := some (s.strategy.predict s.cfg a) } := by
  have hstep : ∀ u r rest, State.Holds s.cfg s.strategy u → u.requests = r :: rest → BranchRequest r →
      ∃ t, step u = .next t ∧ t.requests = rest ∧ State.Holds s.cfg s.strategy t := by
    intro u r rest hu huq hr
    obtain ⟨t, ht, htq, htready, htcfg, hstrategy⟩ := step_branchRequest hu.selected hr huq
    have hsame : t.strategy = s.strategy := by
      rcases hstrategy with h | ⟨b, o, h⟩
      · exact h.trans hu.strategy
      · rw [h, hu.strategy, hu.cfg, hconst]
    refine ⟨t, ht, htq, ⟨htready.trans hu.selected.ready, ?_⟩, htcfg.trans hu.cfg, hsame⟩
    rw [htcfg, hu.cfg, hsame]
    exact hsel.hasCode
  obtain ⟨t, hrun, htq, ht⟩ := run_branchRequests hstep ⟨hsel, rfl, rfl⟩ hq hearlier
  have hlast := step_predictWord ht.selected htq
  rw [run_add earlier.length 1 hrun, run_succ 0 hlast, run_zero]
  simp only [State.respond, ht.cfg, ht.strategy, ht.selected.ready, hsel.ready]

/-- Settles O12: neither strategy has a state to train (`run_constant`). -/
theorem constantStrategiesStayConstant : Obligations.ConstantStrategiesStayConstant := by
  intro s earlier a hready hearlier hq
  constructor
  · intro hv hs
    have hsel : s.Selected := ⟨hready, by rw [hs, hv]; rfl⟩
    have hrun := run_constant hsel hearlier hq fun b o => by rw [hs]; rfl
    rw [hs] at hrun
    rw [hrun, hs]
    rfl
  · intro hv hs
    have hsel : s.Selected := ⟨hready, by rw [hs]; exact decide_eq_true hv⟩
    have hrun := run_constant hsel hearlier hq fun b o => by rw [hs]; rfl
    rw [hs] at hrun
    rw [hrun, hs]
    rfl

/-! ### The first prediction (R221) -/

/-- What a strategy in its start state responds: the readout of a WN counter is NOT_TAKEN, and a sum of
zero weights is not negative. -/
theorem initStrategy_predict (v : VariantCode) (g : WidthField) (c : CfgWord) (a : Addr) :
    (initStrategy Config.params v g).predict c a = decide (v = 0 ∨ v = 3) := by
  rcases variantCode_cases v with rfl | rfl | rfl | rfl | hv
  · rfl
  · rfl
  · rfl
  · have hrow : pcRow Config.params ⟨initHistory Config.params 31 Config.pghrWidth, []⟩ a =
        Vector.replicate 31 0#8 := rfl
    rw [initStrategy_custom, Strategy.predict, pcPredict, percY, hrow, initHistory_params]
    decide
  · obtain ⟨h0, -, -, h3⟩ := variantCode_ne_of_four_le hv
    rw [initStrategy_unknown _ _ hv, decide_eq_false (not_or.mpr ⟨h0, h3⟩)]
    rfl

/-- Settles O34: after the INIT the PREDICT meets the start state (`initStrategy_predict`). -/
theorem firstPredictionAfterInit : Obligations.FirstPredictionAfterInit := by
  intro s v g l p a hwf hq
  have hinit := step_initWord_of_wf hwf hq
  have hready := State.readyWith_initialised hwf { s with requests := [predictWord a] }
  have hpredict := step_predictWord (hready.inv.selected hready.ready) (a := a) (rest := []) rfl
  exact ⟨_, (run_succ 1 hinit).trans (run_succ 0 hpredict), congrArg some (initStrategy_predict v g _ a)⟩

/-! ### A TRAIN after a PREDICT (R43) -/

/-- A PREDICT leaves nothing behind that another operation reads (`exec_respond`). -/
theorem exec_after_predict {s t : State} {a : Addr} {i : Instr} (hi : IsPredictAt a i)
    {j : Instr} (h : exec i s = .next t) : exec j t = exec j s := by
  obtain ⟨b, rfl⟩ := exec_predict_next hi h
  exact exec_respond j s b

/-- Settles O49: `exec_after_predict` for each of the five rows. -/
theorem trainDoesNotDependOnAnEarlierPredict : Obligations.TrainDoesNotDependOnAnEarlierPredict := by
  intro s t a b o
  refine ⟨exec_after_predict (a := a) ?static, exec_after_predict (a := a) ?gshare,
    exec_after_predict (a := a) ?tournament, exec_after_predict (a := a) ?custom,
    exec_after_predict (a := a) ?unknown⟩
  case static => exact .inl rfl
  case gshare => exact .inr (.inl rfl)
  case tournament => exact .inr (.inr (.inl rfl))
  case custom => exact .inr (.inr (.inr (.inl rfl)))
  case unknown => exact .inr (.inr (.inr (.inr rfl)))

/-! ### A placed table word (spec/30_encoding.md section 4; notes/assumptions/4.md) -/

/-- A block in which the step on the operation's request is the operation: any block for an INIT, a ready
one of the operation's strategy for the others. -/
def State.Runs (s : State) (i : Instr) : Prop :=
  (∃ v g l p, i = .init v g l p) ∨ s.Selected ∧ Cfg.variant s.cfg = rowVariant i

section Runs
variable {s : State} {i : Instr} (h : s.Runs i)
include h

theorem State.Runs.decode : decodeRequest s.ready (Cfg.variant s.cfg) (encodeRequest i) = .ok i := by
  rcases h with ⟨v, g, l, p, rfl⟩ | ⟨hsel, hv⟩
  · exact decodeRequest_initWord ..
  · rw [hsel.ready, hv, decodeRequest_encodeRequest]

theorem State.Runs.exec_next (hwf : i.wf = true) : ∃ t, exec i s = .next t := by
  rcases h with ⟨v, g, l, p, rfl⟩ | ⟨⟨hready, hcode⟩, hv⟩
  · exact exec_init_next_iff.mpr hwf
  rw [hv] at hcode
  rcases instr_cases i with ⟨v, g, l, p, rfl⟩ | ⟨a, hi, -⟩ | ⟨a, o, hi, -⟩
  · exact exec_init_next_iff.mpr hwf
  · rw [hi]; exact ⟨_, exec_dispatchPredict hready hcode a⟩
  · rw [hi]; exact ⟨_, exec_dispatchTrain hready hcode a o⟩

end Runs

/-- The stand-in for the INIT leaves a ready block of the strategy asked for. -/
theorem State.selected_instanceOf (v : VariantCode) (s : State) :
    (s.instanceOf Config.params v).Selected ∧ Cfg.variant (s.instanceOf Config.params v).cfg = v := by
  have hlegal : ∀ f, widthInRange Config.params (legalWidth Config.params f) = true := by
    intro f
    unfold legalWidth
    split
    · assumption
    · rfl
  unfold State.instanceOf
  split
  · next h =>
    rw [Bool.and_eq_true, Bool.and_eq_true, decide_eq_true_iff] at h
    obtain ⟨⟨hready, hv⟩, hcode⟩ := h
    exact ⟨⟨hready, hv ▸ hcode⟩, hv⟩
  · refine ⟨State.Inv.selected (State.inv_initialised ?_ s) rfl, Cfg.variant_pack ..⟩
    simp only [initWidthsOk, hlegal, Bool.and_self, ite_self]

theorem State.instanceOf_requests (prm : Params) (v : VariantCode) (s : State) :
    (s.instanceOf prm v).requests = s.requests := by
  unfold State.instanceOf
  split <;> rfl

theorem State.instanceOf_of_hasCode {prm : Params} {v : VariantCode} {s : State} (hready : s.ready = true)
    (hv : Cfg.variant s.cfg = v) (hcode : Strategy.hasCode v s.strategy = true) :
    s.instanceOf prm v = s := by
  rw [State.instanceOf, hready, decide_eq_true hv, hcode]
  rfl

/-- The block that placing an operation's word leaves, before the request is put in front: for an INIT the
block as it is, for the others one of their strategy. -/
def State.placeFor (s : State) (i : Instr) : State :=
  if Request.op (encodeRequest i) = 2 then s else s.instanceOf Config.params (rowVariant i)

section Place
variable (s : State) (i : Instr)

theorem State.withFetchWord_encode :
    s.withFetchWord 40 (encode i).toNat = (s.placeFor i).withRequest (encodeRequest i) := by
  have hlt := (encode i).isLt
  have hmod : (encode i).toNat % 2 ^ 40 = (encode i).toNat := Nat.mod_eq_of_lt (by omega)
  rw [State.withFetchWord, hmod, BitVec.ofNat_toNat, BitVec.setWidth_eq, State.withDispatchWord, encode,
    dispatchWord_request, dispatchWord_variant, State.placeFor]
  split <;> rfl

theorem decodeTableWord_encode : decodeTableWord 40 (encode i).toNat = some i := by
  have hlt := (encode i).isLt
  have hmod : (encode i).toNat % 2 ^ 40 = (encode i).toNat := Nat.mod_eq_of_lt (by omega)
  simp only [decodeTableWord, hmod, hlt, if_true, BitVec.ofNat_toNat, BitVec.setWidth_eq,
    decodeInvertsEncode i, Except.toOption]

theorem State.placeFor_requests : (s.placeFor i).requests = s.requests := by
  unfold State.placeFor
  split
  · rfl
  · exact State.instanceOf_requests ..

theorem State.placeFor_runs : (s.placeFor i).Runs i := by
  unfold State.placeFor
  split
  · next hop =>
    rcases instr_cases i with hinit | ⟨a, -, hw⟩ | ⟨a, o, -, hw⟩
    · exact .inl hinit
    · rw [hw, predictWord_op] at hop; cases hop
    · rw [hw, trainWord_op] at hop; cases hop
  · exact .inr (State.selected_instanceOf ..)

end Place

/-- Settles O44: the placed block runs the operation (`State.placeFor_runs`), and is the block as it was
where that is ready and of the operation's strategy. -/
theorem fetchWordRunsExactlyThatOperation : Obligations.FetchWordRunsExactlyThatOperation := by
  intro s i
  have hruns := s.placeFor_runs i
  have hstep : step ((s.placeFor i).withRequest (encodeRequest i)) = exec i (s.placeFor i) :=
    step_of_decode rfl hruns.decode
  rw [State.withFetchWord_encode, hstep]
  refine ⟨decodeTableWord_encode i, ?_, hruns.exec_next, fun hready hv hcode => ?_⟩
  · rw [← State.placeFor_requests s i]
    rfl
  · have hplace : s.placeFor i = s := by
      rw [State.placeFor, State.instanceOf_of_hasCode hready hv hcode, ite_self]
    rw [hplace]
    rfl

end Sys2Proof.Machine

/-! PROOFS. Repeated steps (spec/40_primitives.md, R103; spec/43_tournament.md, R137, R140, R141): counters
and selector entries under one outcome again and again, and what a TRAIN does to the selector. -/

namespace Sys2Proof.Machine

/-! ### Counters -/

theorem iterate_sat2Update_notTaken (s : Counter) (n : Nat) :
    ((fun c => sat2Update c notTaken)^[n] s).toNat = s.toNat - n := by
  induction n with
  | zero => rfl
  | succ n ih =>
    rw [Function.iterate_succ_apply', sat2Update_toNat, ih]
    exact Nat.sub_sub s.toNat n 1

theorem iterate_sat2Update_taken (s : Counter) (n : Nat) :
    ((fun c => sat2Update c taken)^[n] s).toNat = min (s.toNat + n) 3 := by
  induction n with
  | zero =>
    have := s.isLt
    exact (Nat.min_eq_left (by omega)).symm
  | succ n ih =>
    rw [Function.iterate_succ_apply', sat2Update_toNat, ih, if_pos rfl]
    omega

/-- Settles O2: `n` equal outcomes move a counter, which is at most 3, by `n` with the end as the limit. -/
theorem counterSaturatesInThreeAndHasHysteresis : Obligations.CounterSaturatesInThreeAndHasHysteresis := by
  refine ⟨fun s n hn => ?_, by decide, by decide, by decide, by decide⟩
  have hs := s.isLt
  constructor
  · refine BitVec.eq_of_toNat_eq ((iterate_sat2Update_notTaken s n).trans ?_)
    exact Nat.sub_eq_zero_of_le (by omega)
  · refine BitVec.eq_of_toNat_eq ((iterate_sat2Update_taken s n).trans ?_)
    exact Nat.min_eq_right (by omega)

/-! ### The selector -/

theorem selStep_localOnly (s : Counter) : selStep s true false = sat2Update s notTaken := rfl

theorem selStep_globalOnly (s : Counter) : selStep s false true = sat2Update s taken := rfl

/-- Settles O5: with one sub-predictor right the step is that of the counter, else there is none. -/
theorem selectorMovesTowardTheCorrectOne : Obligations.SelectorMovesTowardTheCorrectOne := fun s =>
  ⟨rfl, rfl, sat2Update_toNat s notTaken, sat2Update_toNat s taken⟩

/-- Settles O6: the selector's steps in one direction are the counter's. -/
theorem selectorMonotoneUnderRepeatedTraining : Obligations.SelectorMonotoneUnderRepeatedTraining := by
  intro s n
  simp only [selStep_localOnly, selStep_globalOnly]
  exact ⟨iterate_sat2Update_notTaken s n, iterate_sat2Update_taken s n⟩

/-- Settles O19: the entry at the old GHR takes `selStep`; where the sub-predictions differ exactly one of
them equals the outcome. -/
theorem selectorFollowsDisagreementOnly : Obligations.SelectorFollowsDisagreementOnly := by
  intro prm c tn a o
  have hsel : tnSelector prm { tnTrain prm c tn a o with ghr := tn.ghr } =
      selStep (tnSelector prm tn) (correct (tnLocalPred prm c tn a) o) (correct (tnGlobalPred prm tn) o) :=
    tnTrain_read_sel_ghr prm c tn a o
  rw [hsel]
  constructor
  · intro hsame
    exact selStep_of_correct_iff _ (by rw [hsame])
  · intro hdiff
    split
    · next hlocal => exact selStep_toNat_localOnly _ hlocal fun hglobal => hdiff (hlocal.trans hglobal.symm)
    · next hlocal =>
      have hglobal := (Bool.eq_not_of_ne hdiff).symm.trans (Bool.eq_not_of_ne hlocal)
      exact selStep_toNat_globalOnly _ hlocal (Bool.not_inj hglobal)

end Sys2Proof.Machine

/-! PROOFS. Index spaces (spec/20_memory.md, R52, R53, R55, R57): addresses that agree on the bits their
strategy indexes with reach the same entries; tables in canonical form that read alike are equal. -/

namespace Sys2Proof.Machine

section Alias
variable {a b : Addr}

theorem lowBits_congr {n : Nat} (h : a.toNat % 2 ^ n = b.toNat % 2 ^ n) : lowBits a n = lowBits b n := by
  rw [lowBits_eq, lowBits_eq, h]

theorem gsIndex_congr {g : Nat} (h : a.toNat % 2 ^ g = b.toNat % 2 ^ g) (ghr : History) :
    gsIndex ghr a g = gsIndex ghr b g := by
  rw [gsIndex_eq_mod, gsIndex_eq_mod, Nat.xor_mod_two_pow, h, ← Nat.xor_mod_two_pow]

section Gshare
variable {c : CfgWord} (h : a.toNat % 2 ^ Cfg.g c = b.toNat % 2 ^ Cfg.g c) (prm : Params) (gs : Gshare)
include h

theorem gsPredict_congr : gsPredict prm c gs a = gsPredict prm c gs b := by
  rw [gsPredict, gsPredict, gsCounter, gsCounter, gsIndex_congr h]

theorem gsTrain_congr (o : Direction) : gsTrain prm c gs a o = gsTrain prm c gs b o := by
  rw [gsTrain, gsTrain, gsCounter, gsCounter, gsIndex_congr h]

end Gshare

section Tournament
variable {c : CfgWord} (h : a.toNat % 2 ^ Cfg.p c = b.toNat % 2 ^ Cfg.p c) (prm : Params)
  (tn : Tournament)
include h

theorem lhtIndex_congr : lhtIndex a (Cfg.p c) = lhtIndex b (Cfg.p c) := lowBits_congr h

theorem tnLocalHistory_congr : tnLocalHistory prm c tn a = tnLocalHistory prm c tn b := by
  rw [tnLocalHistory, tnLocalHistory, lhtIndex_congr h]

theorem lptIndex_congr : lptIndex prm c tn a = lptIndex prm c tn b := by
  rw [lptIndex, lptIndex, tnLocalHistory_congr h]

theorem tnLocalPred_congr : tnLocalPred prm c tn a = tnLocalPred prm c tn b := by
  rw [tnLocalPred, tnLocalPred, tnLocalCounter, tnLocalCounter, lptIndex_congr h]

theorem tnPredict_congr : tnPredict prm c tn a = tnPredict prm c tn b := by
  rw [tnPredict, tnPredict, tnLocalPred_congr h]

theorem tnTrain_congr (o : Direction) : tnTrain prm c tn a o = tnTrain prm c tn b o := by
  rw [tnTrain, tnTrain, tnLocalCounter, tnLocalCounter, lptIndex_congr h, tnLocalHistory_congr h,
    lhtIndex_congr h, tnLocalPred_congr h]

end Tournament

section Custom
variable (h : a.toNat % 256 = b.toNat % 256) (prm : Params) (pc : Custom)
include h

theorem ptRow_congr : ptRow a = ptRow b := by
  rw [ptRow_eq_mod, ptRow_eq_mod, h]

theorem percY_congr : percY prm pc a = percY prm pc b := by
  rw [percY, percY, pcRow, pcRow, ptRow_congr h]

theorem pcTrain_congr (o : Direction) : pcTrain prm pc a o = pcTrain prm pc b o := by
  rw [pcTrain, pcTrain, percY_congr h, pcRow, pcRow, ptRow_congr h]

end Custom

end Alias

/-- Settles O8: the two operations of each strategy reach the address through its index alone. -/
theorem aliasedAddressesShareTheirEntries : Obligations.AliasedAddressesShareTheirEntries := by
  intro a b o s
  refine ⟨fun h => ?gshare, fun h => ?tournament, fun h => ?custom⟩
  case gshare =>
    simp only [exec_predictGshare, exec_trainGshare, gsPredict_congr h, gsTrain_congr h, and_self]
  case tournament =>
    simp only [exec_predictTournament, exec_trainTournament, tnPredict_congr h, tnTrain_congr h, and_self]
  case custom =>
    simp only [exec_predictCustom, exec_trainCustom, pcPredict, percY_congr h, pcTrain_congr h, and_self]

/-! ### Canonical tables (notes/assumptions/3.md) -/

section Canonical
variable {α : Type} {d : α} {n : Nat} {e : Nat × α} {t u : Table α}

theorem Table.read_cons_same : Table.read d (e :: t) e.1 = e.2 := if_pos rfl

theorem Table.read_cons_other {i : Nat} (h : e.1 ≠ i) : Table.read d (e :: t) i = Table.read d t i :=
  if_neg h

theorem Table.wf.tail (h : Table.wf d n (e :: t)) : Table.wf d n t :=
  ⟨h.1.tail, fun x hx => h.2 x (List.mem_cons_of_mem e hx)⟩

/-- The first listed index does not read as the fill value, and every index before it does. -/
theorem Table.wf.read_head (h : Table.wf d n (e :: t)) : Table.read d (e :: t) e.1 ≠ d := by
  rw [Table.read_cons_same]
  exact (h.2 e List.mem_cons_self).2

theorem Table.wf.read_before_head (h : Table.wf d n (e :: t)) {i : Nat} (hi : i < e.1) :
    Table.read d (e :: t) i = d := by
  refine Table.read_of_lt d _ i (List.forall_mem_cons.mpr ⟨hi, fun x hx => ?_⟩)
  exact hi.trans (List.rel_of_pairwise_cons h.1 hx)

/-- Past its first entry a canonical table reads as the fill value where that entry is. -/
theorem Table.wf.read_tail_head (h : Table.wf d n (e :: t)) : Table.read d t e.1 = d :=
  Table.read_of_lt d t e.1 fun _ hx => List.rel_of_pairwise_cons h.1 hx

theorem Table.eq_of_read_eq (ht : Table.wf d n t) (hu : Table.wf d n u)
    (h : ∀ i, Table.read d t i = Table.read d u i) : t = u := by
  induction t generalizing u with
  | nil =>
    cases u with
    | nil => rfl
    | cons f u => exact absurd (h f.1).symm hu.read_head
  | cons e t ih =>
    cases u with
    | nil => exact absurd (h e.1) ht.read_head
    | cons f u =>
      have hindex : e.1 = f.1 := by
        rcases Nat.lt_trichotomy e.1 f.1 with hlt | heq | hgt
        · exact absurd ((h e.1).trans (hu.read_before_head hlt)) ht.read_head
        · exact heq
        · exact absurd ((h f.1).symm.trans (ht.read_before_head hgt)) hu.read_head
      have hvalue : e.2 = f.2 := by
        have hread := h e.1
        rwa [Table.read_cons_same, hindex, Table.read_cons_same] at hread
      have htail : t = u := by
        refine ih ht.tail hu.tail fun i => ?_
        by_cases hi : e.1 = i
        · subst hi
          rw [ht.read_tail_head, hindex, hu.read_tail_head]
        · have hread := h i
          rwa [Table.read_cons_other hi, Table.read_cons_other (hindex ▸ hi)] at hread
      rw [Prod.ext hindex hvalue, htail]

end Canonical

/-- Settles O9: for counters, `Table.eq_of_read_eq`. -/
theorem canonicalTablesThatReadAlikeAreEqual : Obligations.CanonicalTablesThatReadAlikeAreEqual :=
  fun _ _ _ _ ht hu h => Table.eq_of_read_eq ht hu h

end Sys2Proof.Machine

/-! PROOFS. Histories (spec/10_state.md sections 4 and 5, R28, R31): a history that started at 0 holds the
outcomes shifted into it, newest first. -/

namespace Sys2Proof.Machine

/-- The history after the outcomes `os`, oldest first, were shifted into `h`. -/
def shiftAll {n : Nat} (w : Nat) (h : BitVec n) (os : List Direction) : BitVec n :=
  os.foldl (fun h o => hshift h o w) h

theorem shiftAll_concat {n : Nat} (w : Nat) (h : BitVec n) (os : List Direction) (o : Direction) :
    shiftAll w h (os ++ [o]) = hshift (shiftAll w h os) o w := List.foldl_concat ..

/-- Bit `k` of a history that started at 0 is the `(k + 1)`-th most recent outcome. -/
theorem shiftAll_zero_getLsbD {n w : Nat} (hw : w ≤ n) (os : List Direction) {k : Nat} (hk : k < w) :
    (shiftAll w 0#n os).getLsbD k = (os.reverse[k]?).getD notTaken := by
  induction os using List.reverseRecOn generalizing k with
  | nil => exact BitVec.getLsbD_zero
  | append_singleton os o ih =>
    rw [shiftAll_concat, hshift_getLsbD _ _ hw, decide_eq_true hk, Bool.true_and, List.reverse_concat]
    cases k with
    | zero => exact Nat.testBit_bit_zero ..
    | succ k =>
      rw [Nat.testBit_bit_succ, BitVec.testBit_toNat, ih (Nat.lt_of_succ_lt hk)]
      rfl

/-- The GHR learns every training's outcome, whatever its address. -/
theorem gsTrainAll_ghr (prm : Params) (c : CfgWord) (gs : Gshare) (ts : List (Addr × Direction)) :
    (gsTrainAll prm c gs ts).ghr = shiftAll (Cfg.g c) gs.ghr (ts.map Prod.snd) := by
  induction ts generalizing gs with
  | nil => rfl
  | cons x ts ih => exact ih (gsTrain prm c gs x.1 x.2)

/-- Settles O15: the GHR is `shiftAll` of the outcomes, starting from 0. -/
theorem gshareHistoryHoldsTheLastOutcomes : Obligations.GshareHistoryHoldsTheLastOutcomes := by
  intro prm c gs ts k hwidth hk hstart
  have hghr := gsTrainAll_ghr prm c gs ts
  rw [hstart] at hghr
  rw [List.map_reverse]
  exact (congrArg (·.getLsbD k) hghr).trans (shiftAll_zero_getLsbD hwidth _ hk)

/-- The trainings whose address selects the LHT entry at index `i` (R53). -/
def trainingsOf (c : CfgWord) (i : Nat) (ts : List (Addr × Direction)) : List (Addr × Direction) :=
  ts.filter fun x => decide (x.1.toNat % 2 ^ Cfg.p c = i)

/-- The state after a list of trainings. -/
def tnTrainAll (prm : Params) (c : CfgWord) (tn : Tournament) (ts : List (Addr × Direction)) : Tournament :=
  ts.foldl (fun t x => tnTrain prm c t x.1 x.2) tn

/-- One training shifts the outcome into the entry its address selects and leaves every other entry. -/
theorem tnTrain_read_lht (c : CfgWord) (tn : Tournament) (a : Addr) (o : Direction) (i : Nat) :
    Table.read 0#32 (tnTrain Config.params c tn a o).lht i =
      if a.toNat % 2 ^ Cfg.p c = i then hshift (Table.read 0#32 tn.lht i) o (Cfg.l c)
      else Table.read 0#32 tn.lht i := by
  have hindex := tnTrain_read_lht_index Config.params c tn a o
  have hother := @tnTrain_read_lht_other Config.params c tn a o
  rw [initHistory_params, lhtIndex, lowBits_eq] at hindex hother
  split
  · next h => rw [← h, hindex, tnLocalHistory_params]
  · next h => exact hother (Ne.symm h)

/-- An LHT entry learns the outcomes of its own trainings only. -/
theorem tnTrainAll_read_lht (c : CfgWord) (tn : Tournament) (ts : List (Addr × Direction)) (i : Nat) :
    Table.read 0#32 (tnTrainAll Config.params c tn ts).lht i =
      shiftAll (Cfg.l c) (Table.read 0#32 tn.lht i) ((trainingsOf c i ts).map Prod.snd) := by
  induction ts generalizing tn with
  | nil => rfl
  | cons x ts ih =>
    have hrest := ih (tnTrain Config.params c tn x.1 x.2)
    rw [tnTrain_read_lht] at hrest
    rw [trainingsOf, List.filter_cons]
    by_cases hx : x.1.toNat % 2 ^ Cfg.p c = i
    · rw [if_pos hx] at hrest
      rw [if_pos (decide_eq_true hx)]
      exact hrest
    · rw [if_neg hx] at hrest
      rw [if_neg (by rw [decide_eq_false hx]; decide)]
      exact hrest

/-- Settles O20: the entry is `shiftAll` of its own outcomes, starting from 0. -/
theorem localHistoryHoldsItsOwnOutcomes : Obligations.LocalHistoryHoldsItsOwnOutcomes := by
  intro c tn ts b k hwidth hk hstart
  have hentry := tnTrainAll_read_lht c tn ts (b.toNat % 2 ^ Cfg.p c)
  rw [hstart] at hentry
  rw [List.map_reverse]
  exact (congrArg (·.getLsbD k) hentry).trans (shiftAll_zero_getLsbD hwidth _ hk)

end Sys2Proof.Machine

/-! PROOFS. The perceptron's sum and its training (spec/44_perceptron.md, R153, R154, R160, R165, R166):
the bounds of the sum, the history bit it does not read, one update without a clamp, and the row that
stops learning. -/

namespace Sys2Proof.Machine

/-! ### The gate (R160) -/

/-- Settles O23: the gate is closed when the magnitude is above THETA and the sign is the outcome's. -/
theorem gateClosesOnlyWhenRightAndConfident : Obligations.GateClosesOnlyWhenRightAndConfident := by
  intro y o
  rw [← Bool.not_eq_true, updateGate_iff, Config.params_theta]
  cases o with
  | false => simp; omega
  | true => simp; omega

/-! ### The bounds of the sum (R154) -/

theorem weight_bounds (w : Weight) : -128 ≤ w.toInt ∧ w.toInt ≤ 127 := by
  have hlo := BitVec.le_toInt w
  have hhi := BitVec.toInt_lt (x := w)
  omega

theorem percTerm_bounds (row : Row) (h : PercHistory) (k : Fin 30) :
    -128 ≤ percTerm row h k ∧ percTerm row h k ≤ 128 := by
  obtain ⟨hlo, hhi⟩ := weight_bounds row[k.val + 1]
  unfold percTerm
  split <;> omega

theorem percSum_bounds (row : Row) (h : PercHistory) : -3968 ≤ percSum row h ∧ percSum row h ≤ 3967 := by
  obtain ⟨hbiasLo, hbiasHi⟩ := weight_bounds row[0]
  have hlo : -3840 ≤ ∑ k : Fin 30, percTerm row h k := by
    simpa using Finset.card_nsmul_le_sum Finset.univ _ (-128) fun k _ => (percTerm_bounds row h k).1
  have hhi : ∑ k : Fin 30, percTerm row h k ≤ 3840 := by
    simpa using Finset.sum_le_card_nsmul Finset.univ _ 128 fun k _ => (percTerm_bounds row h k).2
  rw [percSum_eq_sum]
  omega

/-- The bias at its upper end and every other weight at its lower one, which a history of zeros negates. -/
def highestRow : Row := (Vector.replicate 31 (-128)).set 0 127

/-- Settles O24: 30 terms in -128 … 128 and a bias in -128 … 127. -/
theorem perceptronSumStaysInThirteenBits : Obligations.PerceptronSumStaysInThirteenBits :=
  ⟨percSum_bounds, ⟨highestRow, 0, by decide⟩, ⟨Vector.replicate 31 (-128), BitVec.allOnes 31, by decide⟩⟩

/-! ### The history bits that are read (R153) -/

/-- The storage of PC.GHR holds all the bits its shift keeps (R13, R35). -/
theorem pghrWidth_le : Config.pghrWidth ≤ 31 := le_rfl

/-- The two histories agree on the 30 bits the sum reads. -/
def SameLowBits (h h' : PercHistory) : Prop := ∀ k, k < 30 → h.getLsbD k = h'.getLsbD k

section LowBits
variable {h h' : PercHistory} (hsame : SameLowBits h h')
include hsame

theorem SameLowBits.percSum (row : Row) : percSum row h = percSum row h' := by
  rw [percSum_eq_sum, percSum_eq_sum]
  congr 1
  exact Finset.sum_congr rfl fun k _ => by rw [percTerm, percTerm, hsame k.val k.isLt]

theorem SameLowBits.laneUp (o : Direction) {i : Nat} (hi : i < 31) : laneUp h o i = laneUp h' o i := by
  rw [Machine.laneUp, Machine.laneUp]
  split
  · rfl
  · rw [hsame (i - 1) (by omega)]

theorem SameLowBits.rowStep (row : Row) (o : Direction) : rowStep row h o = rowStep row h' o := by
  refine Vector.ext fun i hi => ?_
  rw [rowStep_lane, rowStep_lane, hsame.laneUp o hi]

theorem SameLowBits.hshift (o : Direction) :
    SameLowBits (hshift h o Config.pghrWidth) (hshift h' o Config.pghrWidth) := by
  intro k hk
  rw [hshift_getLsbD _ _ pghrWidth_le, hshift_getLsbD _ _ pghrWidth_le]
  cases k with
  | zero => rw [Nat.testBit_bit_zero, Nat.testBit_bit_zero]
  | succ k =>
    rw [Nat.testBit_bit_succ, Nat.testBit_bit_succ, BitVec.testBit_toNat, BitVec.testBit_toNat,
      hsame k (by omega)]

end LowBits

section SamePredictor
variable {prm : Params} {pc pd : Custom} (hpt : pc.pt = pd.pt) (hsame : SameLowBits pc.ghr pd.ghr)
include hpt hsame

theorem percY_of_sameLowBits (a : Addr) : percY prm pc a = percY prm pd a := by
  rw [percY, percY, pcRow, pcRow, hpt, hsame.percSum]

theorem pcTrain_pt_of_sameLowBits (a : Addr) (o : Direction) :
    (pcTrain prm pc a o).pt = (pcTrain prm pd a o).pt := by
  rw [pcTrain_pt, pcTrain_pt, percY_of_sameLowBits hpt hsame, pcRow, pcRow, hpt, hsame.rowStep]

end SamePredictor

/-- Settles O25: sum, gate, lanes and shift each read the bits 0 to 29 of the history only. -/
theorem historyBitThirtyIsNeverRead : Obligations.HistoryBitThirtyIsNeverRead := by
  intro prm pc pd hpt hsame a o
  refine ⟨?_, pcTrain_pt_of_sameLowBits hpt hsame a o, SameLowBits.hshift hsame o⟩
  rw [pcPredict, pcPredict, percY_of_sameLowBits hpt hsame]

/-! ### One update without a clamp (R165) -/

/-- One unit toward the outcome. -/
def toward (o : Direction) : Int := if o then 1 else -1

/-- Stepping up where the input equals the outcome is a step toward the outcome for a set input and away
from it for a clear one. -/
theorem toward_beq : ∀ b o : Bool, toward (b == o) = if b then toward o else -toward o := by decide

theorem sat8Step_toInt_of_inside {w : Weight} (hw : -128 < w.toInt ∧ w.toInt < 127) (up : Bool) :
    (sat8Step w up).toInt = w.toInt + toward up := by
  rw [sat8Step_toInt, toward]
  split <;> omega

section Unclamped
variable {row : Row} (hrow : ∀ i : Fin 31, -128 < (row[i.val]).toInt ∧ (row[i.val]).toInt < 127)
include hrow

/-- The term of a clear input is the negated weight, so for either input it moves toward the outcome. -/
theorem percTerm_rowStep (h : PercHistory) (o : Direction) (k : Fin 30) :
    percTerm (rowStep row h o) h k = percTerm row h k + toward o := by
  have hlane : (sat8Step row[k.val + 1] (h.getLsbD k.val == o)).toInt =
      (row[k.val + 1]).toInt + toward (h.getLsbD k.val == o) :=
    sat8Step_toInt_of_inside (hrow k.succ) _
  rw [percTerm, percTerm, rowStep_historyLane, hlane, toward_beq]
  split <;> ring

theorem percSum_rowStep (h : PercHistory) (o : Direction) :
    percSum (rowStep row h o) h = percSum row h + 31 * toward o := by
  have hbias := sat8Step_toInt_of_inside (hrow 0) o
  have hterms : ∑ k : Fin 30, percTerm (rowStep row h o) h k =
      (∑ k : Fin 30, percTerm row h k) + 30 * toward o := by
    rw [Finset.sum_congr rfl fun k _ => percTerm_rowStep hrow h o k, Finset.sum_add_distrib,
      Finset.sum_const, Finset.card_univ, Fintype.card_fin, nsmul_eq_mul]
    rfl
  rw [percSum_eq_sum, percSum_eq_sum, hterms, rowStep_bias]
  have hbias' : (sat8Step row[0] o).toInt = (row[0]).toInt + toward o := hbias
  rw [hbias']
  ring

end Unclamped

/-- Settles O26: the bias and the 30 terms each move by one toward the outcome. -/
theorem unclampedUpdateMovesTheSumByThirtyOne : Obligations.UnclampedUpdateMovesTheSumByThirtyOne := by
  intro row h o hrow
  rw [percSum_rowStep hrow, toward]
  cases o <;> rfl

/-! ### The row that stops learning (R166) -/

/-- `q` is `pc` again but for history bit 30: the same weights, and like `pc` 30 ones in the history. -/
structure Settled (pc q : Custom) : Prop where
  pt : q.pt = pc.pt
  ones : ∀ k, k < 30 → q.ghr.getLsbD k = true

/-- Shifting a 1 into a history whose low 30 bits are 1 leaves them 1. -/
theorem hshift_taken_ones {h : PercHistory} (hones : ∀ k, k < 30 → h.getLsbD k = true) {k : Nat}
    (hk : k < 30) : (hshift h taken Config.pghrWidth).getLsbD k = true := by
  rw [hshift_getLsbD _ _ pghrWidth_le]
  cases k with
  | zero => rw [Nat.testBit_bit_zero]; rfl
  | succ k =>
    rw [Nat.testBit_bit_succ, BitVec.testBit_toNat, hones k (by omega), Bool.and_true]
    exact decide_eq_true (by rw [Config.pghrWidth]; omega)

section Confident
variable {prm : Params} {pc q : Custom} {a : Addr}
  (hones : ∀ k, k < 30 → pc.ghr.getLsbD k = true) (hy : (prm.theta : Int) < percY prm pc a)
include hones hy

theorem Settled.lt_percY (hq : Settled pc q) : (prm.theta : Int) < percY prm q a := by
  have hsame : SameLowBits q.ghr pc.ghr := fun k hk => (hq.ones k hk).trans (hones k hk).symm
  rw [percY_of_sameLowBits hq.pt hsame]
  exact hy

/-- The gate is closed: the sum is above THETA, and its sign is TAKEN. -/
theorem Settled.train (hq : Settled pc q) : Settled pc (pcTrain prm q a taken) where
  pt := by
    have hlt := hq.lt_percY hones hy
    have hgate : ¬updateGate prm (percY prm q a) taken = true := by
      rw [updateGate_iff, decide_eq_true (by omega : 0 ≤ percY prm q a)]
      simp only [ne_eq, not_true_eq_false, or_false]
      omega
    exact (pcTrain_pt_of_not_gate prm q a taken hgate).trans hq.pt
  ones _ hk := hshift_taken_ones hq.ones hk

theorem settled_iterate (n : Nat) : Settled pc ((fun q => pcTrain prm q a taken)^[n] pc) := by
  induction n with
  | zero => exact ⟨rfl, hones⟩
  | succ n ih =>
    rw [Function.iterate_succ_apply']
    exact ih.train hones hy

end Confident

/-- Settles O27: every training of the address leaves the state `Settled`. -/
theorem confidentTakenRowStopsLearning : Obligations.ConfidentTakenRowStopsLearning := by
  intro prm pc a n hones hy
  have hsettled := settled_iterate hones hy n
  have hlt := hsettled.lt_percY hones hy
  exact ⟨hsettled.pt, decide_eq_true (by omega)⟩

end Sys2Proof.Machine
